-- ==== Sys2Proof/Word.lean ====
section
/-! DEFINITION. The widths of the machine's values (00_scope.md R5, R7; 10_state.md R10). Every value is unsigned:
the machine has no signed quantity and no sign extension (R7). -/

namespace Sys2Proof

/-- Four bits of an instruction word, the unit the decoder splits into (R61). -/
abbrev Nibble := BitVec 4

/-- One byte: a general register, a timer, the stack pointer, a cell of main memory (R5, R10). -/
abbrev Byte := BitVec 8

/-- The 12-bit operand nnn, a complete address (R62). -/
abbrev Addr12 := BitVec 12

/-- Sixteen bits: an instruction word, PC, I, a stack entry (R5, R10). -/
abbrev Word := BitVec 16

/-- A general register's index, 0 to 15: every index an instruction can form is valid (R11). -/
abbrev Reg := Fin 16

/-- VF, register 15, the carry, borrow and collision flag (R12). -/
def VF : Reg := 15

end Sys2Proof
end

