-- ==== Sys2Proof/Machine/Flags.lean ====
section
/-! DEFINITION. The values VF takes as a flag: the machine has no other flag (10_state.md R12). -/

namespace Sys2Proof
namespace Machine

/-- A flag as VF holds it: 1 or 0 (R12). -/
def flagByte (b : Bool) : Byte := if b then 1 else 0

/-- The carry of ADD Vx,Vy: 1 when the sum of the two numbers exceeds 255 (R116). -/
def carryFlag (a b : Byte) : Byte := flagByte (decide (a.toNat + b.toNat > 255))

/-- The flag of SUB and SUBN: 1 when the minuend is STRICTLY greater than the subtrahend (R117, R119; D21). -/
def greaterFlag (minuend subtrahend : Byte) : Byte := flagByte (decide (minuend.toNat > subtrahend.toNat))

/-- The bit SHR shifts out, bit 0 (R118). -/
def shrFlag (a : Byte) : Byte := a &&& 1

/-- The bit SHL shifts out, bit 7 (R120). -/
def shlFlag (a : Byte) : Byte := (a &&& 0x80) >>> 7

end Machine
end Sys2Proof
end

