-- ==== Sys2Proof/Config.lean ====
section
/-! DEFINITION. The fixed sizes of the machine (00_scope.md R5) and its one free value, the random byte of RND (R6, R88). -/

namespace Sys2Proof
namespace Config

/-- MEM_SIZE: bytes of main memory, addresses 0x000 to 0xFFF (R5, R40). -/
def memSize : Nat := 4096

/-- ROM_BASE: where an image is loaded, and PC after `LoadRom` (R5, R195). -/
def romBase : Nat := 0x200

/-- The longest image that fits between ROM_BASE and the end of memory (R193). -/
def romMax : Nat := 3584

/-- FONT_SIZE: sixteen glyphs of five bytes, at FONT_BASE = 0 (R5, R24). -/
def fontSize : Nat := 80

/-- `rnd`, the random byte of the k-th RND executed: "any value 0 to 255, chosen afresh for every Step, under no law"
(40_step_cycle.md R88; 00_scope.md R6). A FREE VALUE: it has no body, so nothing can be proved of it, and a theorem
about it holds for every sequence of bytes. See the assumption log, entry 3. -/
opaque rnd : Nat → Byte

end Config
end Sys2Proof
end

