-- ==== Sys2Proof/Syntax.lean ====
section
/-! DEFINITION. The 34 instructions of 30_encoding.md R66, in the table's order, one constructor per row of
spec/opcode_table.json. The operands are those of R62 and each has exactly the width of its field, so an operand that
does not fit its field cannot be written; Sys2Proof/WellFormed.lean holds the checks that turn numbers into operands. -/

namespace Sys2Proof

/-- An instruction (R66). `x`, `y` are register indices, `kk` the 8-bit immediate, `nnn` the 12-bit address, `n` the
4-bit height of DRW (R62). SHR and SHL keep the y field of the word, which the handler ignores (R63). -/
inductive Instr where
  | cls                               -- CLS          00E0  R144
  | ret                               -- RET          00EE  R101
  | jp (nnn : Addr12)                 -- JP nnn       1nnn  R102
  | call (nnn : Addr12)               -- CALL nnn     2nnn  R103
  | seImm (x : Reg) (kk : Byte)       -- SE Vx,kk     3xkk  R104
  | sneImm (x : Reg) (kk : Byte)      -- SNE Vx,kk    4xkk  R105
  | seReg (x y : Reg)                 -- SE Vx,Vy     5xy0  R106
  | ldImm (x : Reg) (kk : Byte)       -- LD Vx,kk     6xkk  R111
  | addImm (x : Reg) (kk : Byte)      -- ADD Vx,kk    7xkk  R113
  | ldReg (x y : Reg)                 -- LD Vx,Vy     8xy0  R114
  | orReg (x y : Reg)                 -- OR Vx,Vy     8xy1  R115
  | andReg (x y : Reg)                -- AND Vx,Vy    8xy2  R121
  | xorReg (x y : Reg)                -- XOR Vx,Vy    8xy3  R122
  | addReg (x y : Reg)                -- ADD Vx,Vy    8xy4  R116
  | sub (x y : Reg)                   -- SUB Vx,Vy    8xy5  R117
  | shr (x y : Reg)                   -- SHR Vx       8xy6  R118
  | subn (x y : Reg)                  -- SUBN Vx,Vy   8xy7  R119
  | shl (x y : Reg)                   -- SHL Vx       8xyE  R120
  | sneReg (x y : Reg)                -- SNE Vx,Vy    9xy0  R108
  | ldI (nnn : Addr12)                -- LD I,nnn     Annn  R131
  | jpV0 (nnn : Addr12)               -- JP V0,nnn    Bnnn  R107
  | rnd (x : Reg) (kk : Byte)         -- RND Vx,kk    Cxkk  R123
  | drw (x y : Reg) (n : Nibble)      -- DRW Vx,Vy,n  Dxyn  R146
  | skp (x : Reg)                     -- SKP Vx       Ex9E  R150
  | sknp (x : Reg)                    -- SKNP Vx      ExA1  R151
  | ldVxDt (x : Reg)                  -- LD Vx,DT     Fx07  R152
  | ldVxK (x : Reg)                   -- LD Vx,K      Fx0A  R153
  | ldDtVx (x : Reg)                  -- LD DT,Vx     Fx15  R154
  | ldStVx (x : Reg)                  -- LD ST,Vx     Fx18  R155
  | addI (x : Reg)                    -- ADD I,Vx     Fx1E  R132
  | ldF (x : Reg)                     -- LD F,Vx      Fx29  R133
  | ldB (x : Reg)                     -- LD B,Vx      Fx33  R136
  | storeRegs (x : Reg)               -- LD [I],Vx    Fx55  R134
  | loadRegs (x : Reg)                -- LD Vx,[I]    Fx65  R135
  deriving DecidableEq, Repr

end Sys2Proof
end

