-- ==== Sys2Proof/Machine/State.lean ====
section
/-! DEFINITION. The state of the machine as plain data: every item of 10_state.md R10, the model's own two fields
(`draws`, `lastResult`), the results a Step can return (40_step_cycle.md R86), and the reasons the model itself stops. -/

namespace Sys2Proof
namespace Machine

/-- The fault kinds of 60_exceptions.md R162 to R164, each with the information its rule names. The spec gives them no
numeric codes (R170). They are results of a Step, not stops of the model: the spec says what state each leaves (R163),
that there is no halt latch and that the next Step carries on (R166). -/
inductive FaultKind where
  /-- PC > 0xFFE at the fetch; carries PC (R162). -/
  | fetchOutOfRange (pc : Word)
  /-- CALL with SP ≥ 15; carries SP (R163). -/
  | stackOverflow (sp : Byte)
  /-- RET with SP = 0 (R163). -/
  | stackUnderflow
  /-- DRW, LD B, LD [I] or LD Vx,[I] with a byte above 0xFFF; carries I and the number of bytes (R163). -/
  | memOutOfRange (i : Word) (k : Nat)
  /-- SKP or SKNP with Vx > 15; carries Vx (R163). -/
  | keyIndexOutOfRange (vx : Byte)
  deriving DecidableEq, Repr

/-- What a Step returns to the host (R86). -/
inductive StepResult where
  /-- An instruction executed. -/
  | ok
  /-- The word matched no pattern; carries the fetch address and the word (R161). -/
  | invalidOpcode (addr word : Word)
  /-- The breakpoint check paused the Step (R81). -/
  | pausedAtBreakpoint
  /-- LD Vx,K found no key pressed (R153). -/
  | waitingForKey
  /-- A bound check failed (R162, R163). -/
  | fault (kind : FaultKind)
  deriving DecidableEq, Repr

/-- Main memory: the bytes that differ from what an unlisted address reads as, by rising address
(Machine/Memory.lean gives that reading and the canonical form). -/
abbrev Memory := List Host.Cell

/-- The frame buffer: 32 rows of 64 cells, row 0 at the top, column 0 at the left (R26, R140). -/
abbrev FrameBuffer := Vector (Vector Bool 64) 32

/-- The frame buffer with every cell unset (R141). -/
def FrameBuffer.blank : FrameBuffer := Vector.replicate 32 (Vector.replicate 64 false)

/-- The state: the items of R10 under their own names, then the two fields of the model. -/
structure State where
  /-- V0 to VF (R11). -/
  v : Vector Byte 16
  /-- The index register I, all 16 bits (R14). -/
  i : Word
  /-- The program counter (R15). -/
  pc : Word
  /-- The stack pointer (R18). -/
  sp : Byte
  /-- The call stack, a store of its own (R19). -/
  stack : Vector Word 16
  /-- The delay timer (R21). -/
  dt : Byte
  /-- The sound timer (R22, R27). -/
  st : Byte
  /-- Main memory, 4096 bytes (R24). -/
  mem : Memory
  /-- The key levels, true = pressed (R25). -/
  key : Vector Bool 16
  /-- The frame buffer (R26). -/
  fb : FrameBuffer
  /-- `Brk`, the set of addresses whose breakpoint flag is set, by rising address (R28). -/
  brk : List Word
  /-- `LastBreak`, the last address paused at (R28). -/
  lastBreak : Option Word
  /-- MODEL: how many random bytes RND has taken; it picks the next free value `Config.rnd draws` (R88). -/
  draws : Nat
  /-- MODEL: the result the last Step returned (R86). The spec's Step returns it to the host; no Step reads it. -/
  lastResult : StepResult
  deriving DecidableEq, Repr

/-- Why the model stops with a fault. -/
inductive Fault where
  /-- Raised by RET when SP > 15. The stack has entries 0 to 15 only (R7, R19), SP is 0 to 15 in every reachable state
  (R10, R18), and the spec gives no effect for such a RET. Safe: no run reaches it. -/
  | stackPointerOutOfRange
  deriving DecidableEq, Repr

/-- Why the model gives an instruction no meaning, or a host operation none. -/
inductive Refusal where
  /-- An arm of `exec` whose instruction has no meaning yet; carries its mnemonic. No arm raises it. Safe. -/
  | notModelled (mnemonic : String)
  /-- A Step before the first LoadRom, "outside the contract [...] a model should refuse it" (70_reset_and_hazards.md
  R196). Raised by `Session.perform` (Machine/HostOps.lean), never by an instruction or by `step`. Safe. -/
  | stepBeforeLoadRom
  deriving DecidableEq, Repr

/-- What executing gives: a next state, a fault of the model or a refusal. -/
abbrev Result := Host.Outcome State Fault Refusal

/-- The state right after reset: `Construct()` and then `LoadRom` with an empty image, the launch state of
70_reset_and_hazards.md R191 with nothing loaded. Every register and key is as R30 says, PC is ROM_BASE (R195), and
memory lists nothing, so it reads as the font and zeros (Machine/Memory.lean). -/
def State.reset : State where
  v := Vector.replicate 16 0
  i := 0
  pc := 0x200
  sp := 0
  stack := Vector.replicate 16 0
  dt := 0
  st := 0
  mem := []
  key := Vector.replicate 16 false
  fb := FrameBuffer.blank
  brk := []
  lastBreak := none
  draws := 0
  lastResult := .ok

end Machine
end Sys2Proof
end

