-- ==== Sys2Proof/Machine/Memory.lean ====
section
/-! DEFINITION. Main memory: one 4096-byte space, byte reads and byte writes (20_memory.md R40, R48, R50), and the
canonical form of the list that holds it. -/

namespace Sys2Proof
namespace Machine

/-- The glyphs of the digits 0 to 7, five bytes each: the customary table of R52 (GK2). -/
def fontLow : List Byte :=
  [0xF0, 0x90, 0x90, 0x90, 0xF0] ++ [0x20, 0x60, 0x20, 0x20, 0x70] ++
  [0xF0, 0x10, 0xF0, 0x80, 0xF0] ++ [0xF0, 0x10, 0xF0, 0x10, 0xF0] ++
  [0x90, 0x90, 0xF0, 0x10, 0x10] ++ [0xF0, 0x80, 0xF0, 0x10, 0xF0] ++
  [0xF0, 0x80, 0xF0, 0x90, 0xF0] ++ [0xF0, 0x10, 0x20, 0x40, 0x40]

/-- The glyphs of the digits 8 to F (R52). -/
def fontHigh : List Byte :=
  [0xF0, 0x90, 0xF0, 0x90, 0xF0] ++ [0xF0, 0x90, 0xF0, 0x10, 0xF0] ++
  [0xF0, 0x90, 0xF0, 0x90, 0x90] ++ [0xE0, 0x90, 0xE0, 0x90, 0xE0] ++
  [0xF0, 0x80, 0x80, 0x80, 0xF0] ++ [0xE0, 0x90, 0x90, 0x90, 0xE0] ++
  [0xF0, 0x80, 0xF0, 0x80, 0xF0] ++ [0xF0, 0x80, 0xF0, 0x80, 0x80]

/-- FONT, the 80 bytes at 0x000 to 0x04F. PRESUMED: the spec leaves FONT a parameter and gives this table as its
default (R6, R52; D26); `State.constructWith` takes any other. See the assumption log, entry 1. -/
def defaultFont : List Byte := fontLow ++ fontHigh

/-- What an address reads as that the memory's list does not hold: the contents after `Construct` (R190), FONT below
0x050 and zero above. -/
def Memory.unlisted (a : Nat) : Byte := defaultFont.getD a 0

/-- The byte at an address (R50: a read has no side effect). -/
def Memory.read : Memory → Nat → Byte
  | [], a => Memory.unlisted a
  | (b, v) :: rest, a => if a = b then v else Memory.read rest a

/-- The list with the entry of one address taken out. -/
def Memory.erase : Memory → Nat → Memory
  | [], _ => []
  | (b, v) :: rest, a => if a = b then rest else (b, v) :: Memory.erase rest a

/-- The list with one entry put in its place by rising address, in the place of an older entry of that address. -/
def Memory.insert : Memory → Nat → Byte → Memory
  | [], a, v => [(a, v)]
  | (b, w) :: rest, a, v =>
    if a < b then (a, v) :: (b, w) :: rest
    else if a = b then (a, v) :: rest
    else (b, w) :: Memory.insert rest a v

/-- `MemWrite(a, 1, v)`: change one byte and nothing else (R7, R50). The callers have checked the range. -/
def Memory.write (m : Memory) (a : Nat) (v : Byte) : Memory :=
  if v = Memory.unlisted a then Memory.erase m a else Memory.insert m a v

/-- Byte writes at ascending addresses (R43, R54). -/
def Memory.writeBytes (m : Memory) (a : Nat) : List Byte → Memory
  | [] => m
  | v :: rest => Memory.writeBytes (Memory.write m a v) (a + 1) rest

/-- The k bytes from an address on, in ascending order (R43, R54). -/
def Memory.readBytes (m : Memory) (a : Nat) : Nat → List Byte
  | 0 => []
  | k + 1 => Memory.read m a :: Memory.readBytes m (a + 1) k

/-- Every entry is at an address of `lo` or more, inside memory, and differs from what its address reads as unlisted;
addresses rise strictly. -/
def Memory.wfFrom (lo : Nat) : Memory → Bool
  | [] => true
  | (a, v) :: rest =>
    decide (lo ≤ a) && decide (a < Config.memSize) && decide (v ≠ Memory.unlisted a) && Memory.wfFrom (a + 1) rest

/-- The canonical form: strictly rising addresses inside memory, and no entry equal to what its address reads as
unlisted, so that equal memories are equal lists. -/
def Memory.wf (m : Memory) : Bool := Memory.wfFrom 0 m

end Machine
end Sys2Proof
end

