-- ==== Sys2Proof/Machine/Operands.lean ====
section
/-! DEFINITION. The operand forms: an address nnn as a 16-bit value, the I-relative range of a memory instruction, the
glyph address and the decimal digits of a register's value. -/

namespace Sys2Proof
namespace Machine

/-- nnn as a 16-bit value: a complete address, zero-extended (30_encoding.md R62). -/
def addrOf (nnn : Addr12) : Word := nnn.setWidth 16

/-- The range check of 20_memory.md R46 on the k bytes from `base`: nothing to check when k = 0, else the last address,
formed without wrap, must be at most 0xFFF. -/
def inRange (base : Word) (k : Nat) : Bool := decide (k = 0 ∨ base.toNat + k - 1 ≤ 0xFFF)

/-- The number of bytes LD [I],Vx and LD Vx,[I] move: V0 to Vx inclusive (43_index_memory.md R134, R135). -/
def regCount (x : Reg) : Nat := x.val + 1

/-- The address LD F,Vx forms: the register's whole value times 5 (R133; D23). -/
def glyphAddr (b : Byte) : Word := BitVec.ofNat 16 (b.toNat * 5)

/-- The three decimal digits of a byte, hundreds first, each a byte of its own (R136). -/
def digits (b : Byte) : List Byte :=
  [BitVec.ofNat 8 (b.toNat / 100), BitVec.ofNat 8 (b.toNat / 10 % 10), BitVec.ofNat 8 (b.toNat % 10)]

end Machine
end Sys2Proof
end

