-- ==== Sys2Proof/Machine/Ops.lean ====
section
/-! DEFINITION. The shared operations over the state: registers, the stack, keys, the frame buffer, and the ways a Step
ends. Every meaning is written over these. -/

namespace Sys2Proof
namespace Machine

/-! ### Registers and PC -/

/-- Read a general register; none is hardwired or banked (10_state.md R11). -/
def State.reg (s : State) (r : Reg) : Byte := s.v[r.val]

/-- Write a general register (R11). -/
def State.setReg (s : State) (r : Reg) (b : Byte) : State := { s with v := s.v.set r.val b }

/-- Write VF as a flag and then the result to Vx, in that order, so that with x = 15 the result stays
(42_alu.md R112; D3). The caller has read the operands already. -/
def State.setFlagAndReg (s : State) (x : Reg) (flag result : Byte) : State := (s.setReg VF flag).setReg x result

/-- The first k general registers, V0 first (43_index_memory.md R134). -/
def State.firstRegs (s : State) (k : Nat) : List Byte := s.v.toList.take k

/-- A skip: PC + 2 once more when the condition holds (41_flow.md R100; 40_step_cycle.md R83). -/
def State.skipIf (s : State) (c : Bool) : State := if c then { s with pc := s.pc + 2 } else s

/-! ### Keys -/

/-- The level of one key (10_state.md R25). -/
def State.keyDown (s : State) (k : Fin 16) : Bool := s.key[k.val]

/-- The least key that is pressed, if any is (45_keypad_timers.md R153; D9). -/
def State.leastKey (s : State) : Option (Fin 16) := (List.finRange 16).find? s.keyDown

/-! ### The frame buffer -/

/-- What drawing leaves: the buffer, and whether a toggled cell had been set. -/
structure Drawn where
  fb : FrameBuffer
  collided : Bool
  deriving DecidableEq, Repr

/-- `FB[x,y]` of the wrapped coordinates (44_display.md R142). -/
def FrameBuffer.pixel (fb : FrameBuffer) (x y : Nat) : Bool :=
  (fb[y % 32]'(Nat.mod_lt y (by decide)))[x % 64]'(Nat.mod_lt x (by decide))

/-- The buffer with the cell of the wrapped coordinates toggled (R142). -/
def FrameBuffer.toggle (fb : FrameBuffer) (x y : Nat) : FrameBuffer :=
  fb.set (y % 32)
    ((fb[y % 32]'(Nat.mod_lt y (by decide))).set (x % 64) (!fb.pixel x y) (Nat.mod_lt x (by decide)))
    (Nat.mod_lt y (by decide))

/-- `SetPixel(x, y)`: toggle the cell of the wrapped coordinates, and say whether it was set before (R142); the
collision is OR-ed into the one found so far (R146). -/
def Drawn.setPixel (d : Drawn) (x y : Nat) : Drawn where
  fb := d.fb.toggle x y
  collided := d.collided || d.fb.pixel x y

/-- One sprite row at (x, y), the columns of the list in turn: a 1 bit sets its pixel, most significant bit leftmost, a
0 bit leaves it alone (R145, R146). -/
def Drawn.drawCols (d : Drawn) (x y : Nat) (row : Byte) : List Nat → Drawn
  | [] => d
  | col :: rest => Drawn.drawCols (if row.getLsbD (7 - col) then d.setPixel (x + col) y else d) x y row rest

/-- The rows of a sprite from (x, y) down, top row first (R145, R146). -/
def Drawn.drawRows (d : Drawn) (x y : Nat) : List Byte → Drawn
  | [] => d
  | row :: rest => Drawn.drawRows (d.drawCols x y row (List.range 8)) x (y + 1) rest

/-- A sprite drawn at (x, y) with no collision found yet (R146). -/
def FrameBuffer.drawSprite (fb : FrameBuffer) (x y : Nat) (rows : List Byte) : Drawn :=
  Drawn.drawRows { fb := fb, collided := false } x y rows

/-! ### The ways a Step ends -/

/-- End the Step in this state and return a result to the host (40_step_cycle.md R86). -/
def endStep (r : StepResult) (s : State) : Result := .next { s with lastResult := r }

/-- The instruction executed: `return ok`. -/
def done (s : State) : Result := endStep .ok s

/-- TAKING A FAULT, the machine's one exception mechanism (60_exceptions.md R160, R163, R168): the Step returns
`fault(kind)` and changes nothing more. No state is saved, no mode or mask changes, control goes nowhere; PC is as it
stands when the fault is raised, advanced for a handler (R163) and not advanced for a fetch (R162). There is no return
from it and nothing to restore (R168): the next Step fetches at PC (R166). -/
def raise (kind : FaultKind) (s : State) : Result := endStep (.fault kind) s

/-- The range check of a memory instruction, made on the whole range before anything changes (20_memory.md R46). -/
def checkRange (k : Nat) (s : State) (body : Result) : Result :=
  if inRange s.i k then body else raise (.memOutOfRange s.i k) s

/-- The key index check of SKP and SKNP: the whole value of Vx must be at most 15 (45_keypad_timers.md R156). -/
def skipOnKey (x : Reg) (s : State) (wanted : Bool) : Result :=
  if h : (s.reg x).toNat < 16 then done (s.skipIf (s.keyDown ⟨(s.reg x).toNat, h⟩ == wanted))
  else raise (.keyIndexOutOfRange (s.reg x)) s

end Machine
end Sys2Proof
end

