-- ==== Sys2Proof/Machine/Alu.lean ====
section
/-! DEFINITION. Register loads, arithmetic, logic, shifts and the random byte (42_alu.md). All arithmetic is on unsigned
8-bit values and wraps modulo 256 (R110, R124); register operands are read before anything is written (R112). -/

namespace Sys2Proof
namespace Machine

/-- LD Vx,kk (R111). -/
def execLdImm (x : Reg) (kk : Byte) (s : State) : Result := done (s.setReg x kk)

/-- ADD Vx,kk: the carry is discarded and VF is not written (R113). -/
def execAddImm (x : Reg) (kk : Byte) (s : State) : Result := done (s.setReg x (s.reg x + kk))

/-- LD Vx,Vy (R114). -/
def execLdReg (x y : Reg) (s : State) : Result := done (s.setReg x (s.reg y))

/-- OR Vx,Vy; VF unaffected (R115). -/
def execOrReg (x y : Reg) (s : State) : Result := done (s.setReg x (s.reg x ||| s.reg y))

/-- AND Vx,Vy; VF unaffected (R121). -/
def execAndReg (x y : Reg) (s : State) : Result := done (s.setReg x (s.reg x &&& s.reg y))

/-- XOR Vx,Vy; VF unaffected (R122). -/
def execXorReg (x y : Reg) (s : State) : Result := done (s.setReg x (s.reg x ^^^ s.reg y))

/-- ADD Vx,Vy: VF ← carry, Vx ← sum mod 256 (R116). -/
def execAddReg (x y : Reg) (s : State) : Result :=
  done (s.setFlagAndReg x (carryFlag (s.reg x) (s.reg y)) (s.reg x + s.reg y))

/-- SUB Vx,Vy: VF ← Vx > Vy, Vx ← (Vx − Vy) mod 256 (R117). -/
def execSub (x y : Reg) (s : State) : Result :=
  done (s.setFlagAndReg x (greaterFlag (s.reg x) (s.reg y)) (s.reg x - s.reg y))

/-- SHR Vx: VF ← bit 0, Vx ← Vx >> 1; y is ignored (R118). -/
def execShr (x _y : Reg) (s : State) : Result := done (s.setFlagAndReg x (shrFlag (s.reg x)) (s.reg x >>> 1))

/-- SUBN Vx,Vy: VF ← Vy > Vx, Vx ← (Vy − Vx) mod 256 (R119). -/
def execSubn (x y : Reg) (s : State) : Result :=
  done (s.setFlagAndReg x (greaterFlag (s.reg y) (s.reg x)) (s.reg y - s.reg x))

/-- SHL Vx: VF ← bit 7, Vx ← (Vx << 1) mod 256; y is ignored (R120). -/
def execShl (x _y : Reg) (s : State) : Result := done (s.setFlagAndReg x (shlFlag (s.reg x)) (s.reg x <<< 1))

/-- RND Vx,kk: Vx ← rnd & kk, with the next free byte (R123, R88). -/
def execRnd (x : Reg) (kk : Byte) (s : State) : Result :=
  done { s.setReg x (Config.rnd s.draws &&& kk) with draws := s.draws + 1 }

end Machine
end Sys2Proof
end

