-- ==== Sys2Proof/Machine/Display.lean ====
section
/-! DEFINITION. CLS and DRW (44_display.md). -/

namespace Sys2Proof
namespace Machine

/-- CLS: every cell unset; VF is not written (R144). -/
def execCls (s : State) : Result := done { s with fb := FrameBuffer.blank }

/-- DRW Vx,Vy,n: the n-row sprite at I drawn at (Vx, Vy) by exclusive or, every pixel wrapping; VF ← 1 when a toggled
cell was set before, else 0. The coordinates are read before VF is written; with n = 0 nothing is read or checked
(R146, R112). -/
def execDrw (x y : Reg) (n : Nibble) (s : State) : Result :=
  let d := s.fb.drawSprite (s.reg x).toNat (s.reg y).toNat (s.mem.readBytes s.i.toNat n.toNat)
  checkRange n.toNat s (done ({ s with fb := d.fb }.setReg VF (flagByte d.collided)))

end Machine
end Sys2Proof
end

