-- ==== Sys2Proof/Machine/Flow.lean ====
section
/-! DEFINITION. Control transfer and conditional skips (41_flow.md). On entry PC is the fetch address plus 2
(40_step_cycle.md R83). -/

namespace Sys2Proof
namespace Machine

/-- RET: PC ← Stack[SP], SP ← SP − 1; `StackUnderflow` when SP = 0 (R101). For SP > 15, which no run reaches, the spec
gives no effect and the model stops (assumption log, entry 7). -/
def execRet (s : State) : Result :=
  if s.sp = 0 then raise .stackUnderflow s
  else if h : s.sp.toNat < 16 then done { s with pc := s.stack[s.sp.toNat], sp := s.sp - 1 }
  else .fault .stackPointerOutOfRange

/-- JP nnn: PC ← nnn (R102). -/
def execJp (nnn : Addr12) (s : State) : Result := done { s with pc := addrOf nnn }

/-- CALL nnn: SP ← SP + 1, Stack[SP] ← PC, PC ← nnn; `StackOverflow` when SP ≥ 15 (R103). -/
def execCall (nnn : Addr12) (s : State) : Result :=
  if h : s.sp.toNat < 15 then
    done { s with
      sp := s.sp + 1
      stack := s.stack.set (s.sp.toNat + 1) s.pc (Nat.succ_lt_succ h)
      pc := addrOf nnn }
  else raise (.stackOverflow s.sp) s

/-- SE Vx,kk: skip if equal (R104). -/
def execSeImm (x : Reg) (kk : Byte) (s : State) : Result := done (s.skipIf (s.reg x == kk))

/-- SNE Vx,kk: skip if not equal (R105). -/
def execSneImm (x : Reg) (kk : Byte) (s : State) : Result := done (s.skipIf (s.reg x != kk))

/-- SE Vx,Vy: skip if the registers are equal (R106). -/
def execSeReg (x y : Reg) (s : State) : Result := done (s.skipIf (s.reg x == s.reg y))

/-- SNE Vx,Vy: skip if the registers differ (R108). -/
def execSneReg (x y : Reg) (s : State) : Result := done (s.skipIf (s.reg x != s.reg y))

/-- JP V0,nnn: PC ← (V0 & 0xFFF) + nnn, stored in the 16-bit PC as it is (R107). -/
def execJpV0 (nnn : Addr12) (s : State) : Result :=
  done { s with pc := ((s.reg 0).setWidth 16 &&& 0xFFF) + addrOf nnn }

end Machine
end Sys2Proof
end

