-- ==== Sys2Proof/Machine/IndexMemory.lean ====
section
/-! DEFINITION. Index register and memory instructions (43_index_memory.md). The only addressing mode is I plus a
constant; the range check covers the whole range before anything is written (R130); I is never modified by a memory
instruction (R137). -/

namespace Sys2Proof
namespace Machine

/-- LD I,nnn: I ← nnn & 0xFFF (R131). -/
def execLdI (nnn : Addr12) (s : State) : Result := done { s with i := addrOf nnn &&& 0xFFF }

/-- ADD I,Vx: a full 16-bit add modulo 65536; VF is not written (R132; D22). -/
def execAddI (x : Reg) (s : State) : Result := done { s with i := s.i + (s.reg x).setWidth 16 }

/-- LD F,Vx: I ← Vx × 5, Vx not masked (R133; D23). -/
def execLdF (x : Reg) (s : State) : Result := done { s with i := glyphAddr (s.reg x) }

/-- LD B,Vx: the hundreds, tens and ones of Vx at I, I+1, I+2 (R136). -/
def execLdB (x : Reg) (s : State) : Result :=
  checkRange 3 s (done { s with mem := s.mem.writeBytes s.i.toNat (digits (s.reg x)) })

/-- LD [I],Vx: V0 to Vx at I, I+1, ... I+x (R134). -/
def execStoreRegs (x : Reg) (s : State) : Result :=
  checkRange (regCount x) s (done { s with mem := s.mem.writeBytes s.i.toNat (s.firstRegs (regCount x)) })

/-- LD Vx,[I]: V0 to Vx from I, I+1, ... I+x; the registers above x keep their values (R135). -/
def execLoadRegs (x : Reg) (s : State) : Result :=
  checkRange (regCount x) s
    (done { s with v := Vector.ofFn fun j => if j ≤ x then s.mem.read (s.i.toNat + j.val) else s.reg j })

end Machine
end Sys2Proof
end

