-- ==== Sys2Proof/Machine/KeypadTimers.lean ====
section
/-! DEFINITION. Keypad and timer instructions (45_keypad_timers.md). -/

namespace Sys2Proof
namespace Machine

/-- SKP Vx: skip if the key of index Vx is pressed; `KeyIndexOutOfRange` when Vx > 15 (R150, R156). -/
def execSkp (x : Reg) (s : State) : Result := skipOnKey x s true

/-- SKNP Vx: skip if the key of index Vx is not pressed (R151, R156). -/
def execSknp (x : Reg) (s : State) : Result := skipOnKey x s false

/-- LD Vx,DT (R152). -/
def execLdVxDt (x : Reg) (s : State) : Result := done (s.setReg x s.dt)

/-- LD Vx,K: the least pressed key goes to Vx; with no key pressed PC goes back to the instruction and the Step returns
`waiting-for-key`, so that the next Step tries again (R153). -/
def execLdVxK (x : Reg) (s : State) : Result :=
  match s.leastKey with
  | some k => done (s.setReg x (BitVec.ofNat 8 k.val))
  | none => endStep .waitingForKey { s with pc := s.pc - 2 }

/-- LD DT,Vx (R154). -/
def execLdDtVx (x : Reg) (s : State) : Result := done { s with dt := s.reg x }

/-- LD ST,Vx (R155). -/
def execLdStVx (x : Reg) (s : State) : Result := done { s with st := s.reg x }

end Machine
end Sys2Proof
end

