-- ==== Sys2Proof/Decode.lean ====
section
/-! DEFINITION. The decoder and the encoder (30_encoding.md R60 to R72). A word is split into four nibbles (R61); the
opcode table is an ordered list of patterns with their instructions, and the first pattern that matches is selected
(R64 to R66); a word that matches none is rejected by name (R69). The pattern bits of all rows but 2nnn, 6xkk and 7xkk
are the spec's general knowledge (GK1); see the assumption log, entry 5. -/

namespace Sys2Proof

/-- A literal instruction: the four 4-bit fields of a word, all present (R61). -/
structure Opcode where
  n1 : Nibble
  n2 : Nibble
  n3 : Nibble
  n4 : Nibble
  deriving DecidableEq, Repr

namespace Opcode

/-- The four nibbles of a word, nibble 1 the most significant (R7, R61). -/
def ofWord (w : Word) : Opcode where
  n1 := w.extractLsb' 12 4
  n2 := w.extractLsb' 8 4
  n3 := w.extractLsb' 4 4
  n4 := w.extractLsb' 0 4

/-- The word of four nibbles (R61). -/
def toWord (o : Opcode) : Word := o.n1 ++ o.n2 ++ o.n3 ++ o.n4

/-- `regX`: "nibble 2 as register index 0–15" (R62). -/
def x (o : Opcode) : Reg := o.n2.toFin

/-- `regY`: "nibble 3 as register index 0–15" (R62). -/
def y (o : Opcode) : Reg := o.n3.toFin

/-- `imm4`: nibble 4 (R62). -/
def n (o : Opcode) : Nibble := o.n4

/-- `imm8`: nibbles 3 and 4 combined (R62). -/
def kk (o : Opcode) : Byte := o.n3 ++ o.n4

/-- `addr12`: nibbles 2, 3 and 4 combined (R62). -/
def nnn (o : Opcode) : Addr12 := o.n2 ++ o.n3 ++ o.n4

end Opcode

/-- A dispatch pattern: four optional 4-bit fields; an absent field matches any value (R64). -/
structure Pattern where
  p1 : Option Nibble
  p2 : Option Nibble
  p3 : Option Nibble
  p4 : Option Nibble
  deriving DecidableEq, Repr

namespace Pattern

/-- One field of R64: present and equal, or absent. -/
def fieldMatches (p : Option Nibble) (v : Nibble) : Bool :=
  match p with
  | none => true
  | some q => q == v

/-- A pattern matches a literal instruction when each of its fields does (R64). -/
def accepts (p : Pattern) (o : Opcode) : Bool :=
  fieldMatches p.p1 o.n1 && fieldMatches p.p2 o.n2 && fieldMatches p.p3 o.n3 && fieldMatches p.p4 o.n4

end Pattern

/-- One row of the opcode table: a pattern and the instruction it selects, with its operands (R65). -/
structure Row where
  pattern : Pattern
  make : Opcode → Instr

/-- Rows 1 to 9 of R66. -/
def rows1 : List Row :=
  [ ⟨⟨some 0x0, some 0x0, some 0xE, some 0x0⟩, fun _ => .cls⟩,
    ⟨⟨some 0x0, some 0x0, some 0xE, some 0xE⟩, fun _ => .ret⟩,
    ⟨⟨some 0x1, none, none, none⟩, fun o => .jp o.nnn⟩,
    ⟨⟨some 0x2, none, none, none⟩, fun o => .call o.nnn⟩,
    ⟨⟨some 0x3, none, none, none⟩, fun o => .seImm o.x o.kk⟩,
    ⟨⟨some 0x4, none, none, none⟩, fun o => .sneImm o.x o.kk⟩,
    ⟨⟨some 0x5, none, none, some 0x0⟩, fun o => .seReg o.x o.y⟩,
    ⟨⟨some 0x6, none, none, none⟩, fun o => .ldImm o.x o.kk⟩,
    ⟨⟨some 0x7, none, none, none⟩, fun o => .addImm o.x o.kk⟩ ]

/-- Rows 10 to 18 of R66. -/
def rows2 : List Row :=
  [ ⟨⟨some 0x8, none, none, some 0x0⟩, fun o => .ldReg o.x o.y⟩,
    ⟨⟨some 0x8, none, none, some 0x1⟩, fun o => .orReg o.x o.y⟩,
    ⟨⟨some 0x8, none, none, some 0x2⟩, fun o => .andReg o.x o.y⟩,
    ⟨⟨some 0x8, none, none, some 0x3⟩, fun o => .xorReg o.x o.y⟩,
    ⟨⟨some 0x8, none, none, some 0x4⟩, fun o => .addReg o.x o.y⟩,
    ⟨⟨some 0x8, none, none, some 0x5⟩, fun o => .sub o.x o.y⟩,
    ⟨⟨some 0x8, none, none, some 0x6⟩, fun o => .shr o.x o.y⟩,
    ⟨⟨some 0x8, none, none, some 0x7⟩, fun o => .subn o.x o.y⟩,
    ⟨⟨some 0x8, none, none, some 0xE⟩, fun o => .shl o.x o.y⟩ ]

/-- Rows 19 to 25 of R66. -/
def rows3 : List Row :=
  [ ⟨⟨some 0x9, none, none, some 0x0⟩, fun o => .sneReg o.x o.y⟩,
    ⟨⟨some 0xA, none, none, none⟩, fun o => .ldI o.nnn⟩,
    ⟨⟨some 0xB, none, none, none⟩, fun o => .jpV0 o.nnn⟩,
    ⟨⟨some 0xC, none, none, none⟩, fun o => .rnd o.x o.kk⟩,
    ⟨⟨some 0xD, none, none, none⟩, fun o => .drw o.x o.y o.n⟩,
    ⟨⟨some 0xE, none, some 0x9, some 0xE⟩, fun o => .skp o.x⟩,
    ⟨⟨some 0xE, none, some 0xA, some 0x1⟩, fun o => .sknp o.x⟩ ]

/-- Rows 26 to 34 of R66. -/
def rows4 : List Row :=
  [ ⟨⟨some 0xF, none, some 0x0, some 0x7⟩, fun o => .ldVxDt o.x⟩,
    ⟨⟨some 0xF, none, some 0x0, some 0xA⟩, fun o => .ldVxK o.x⟩,
    ⟨⟨some 0xF, none, some 0x1, some 0x5⟩, fun o => .ldDtVx o.x⟩,
    ⟨⟨some 0xF, none, some 0x1, some 0x8⟩, fun o => .ldStVx o.x⟩,
    ⟨⟨some 0xF, none, some 0x1, some 0xE⟩, fun o => .addI o.x⟩,
    ⟨⟨some 0xF, none, some 0x2, some 0x9⟩, fun o => .ldF o.x⟩,
    ⟨⟨some 0xF, none, some 0x3, some 0x3⟩, fun o => .ldB o.x⟩,
    ⟨⟨some 0xF, none, some 0x5, some 0x5⟩, fun o => .storeRegs o.x⟩,
    ⟨⟨some 0xF, none, some 0x6, some 0x5⟩, fun o => .loadRegs o.x⟩ ]

/-- The Opcode Table, "an ordered set of (pattern, handler) pairs" (R65), in the order of R66. -/
def opcodeTable : List Row := rows1 ++ rows2 ++ rows3 ++ rows4

/-- Why bytes are not an instruction. -/
inductive DecodeError where
  /-- The word matches no pattern of the table: `InvalidOpcode` (R69, R161). -/
  | invalidOpcode (w : Word)
  /-- Fewer than two bytes were given; an instruction is always two (R60). A fetch never does this. -/
  | truncated
  deriving DecidableEq, Repr

/-- Decode one word: the first pattern that matches selects the instruction; no match is `InvalidOpcode` (R65, R69).
Total on all 65536 words (R71). -/
def decode (w : Word) : Except DecodeError Instr :=
  match opcodeTable.find? (fun r => r.pattern.accepts (Opcode.ofWord w)) with
  | some r => .ok (r.make (Opcode.ofWord w))
  | none => .error (.invalidOpcode w)

/-- The word of two bytes as they lie in memory, the byte at the lower address most significant (R42). -/
def wordOfBytes (high low : Byte) : Word := high ++ low

/-- The two bytes of a word, as they lie in memory (R42). -/
def bytesOfWord (w : Word) : Byte × Byte := (w.extractLsb' 8 8, w.extractLsb' 0 8)

/-- Decode the instruction at the head of a list of bytes and give the bytes after it; it always takes two (R60, R72). -/
def decodeBytes : List Byte → Except DecodeError (Instr × List Byte)
  | high :: low :: rest =>
    match decode (wordOfBytes high low) with
    | .ok i => .ok (i, rest)
    | .error e => .error e
  | _ => .error .truncated

/-- The nibble that names a register (R62). -/
def regNibble (r : Reg) : Nibble := ⟨r⟩

/-- A word of format A: nibble 1 fixed, then nnn (R63). -/
def formatA (n1 : Nibble) (nnn : Addr12) : Word := n1 ++ nnn

/-- A word of format XK: nibble 1 fixed, x, then kk (R63). -/
def formatXK (n1 : Nibble) (x : Reg) (kk : Byte) : Word := n1 ++ regNibble x ++ kk

/-- A word of format XY or XYN: nibble 1, x, y, nibble 4 (R63). -/
def formatXY (n1 : Nibble) (x y : Reg) (n4 : Nibble) : Word := n1 ++ regNibble x ++ regNibble y ++ n4

/-- A word of format X: nibble 1 fixed, x, then a fixed low byte (R63). -/
def formatX (n1 : Nibble) (x : Reg) (low : Byte) : Word := n1 ++ regNibble x ++ low

/-- The word of an instruction, from the pattern column of R66. -/
def encode : Instr → Word
  | .cls => 0x00E0
  | .ret => 0x00EE
  | .jp nnn => formatA 0x1 nnn
  | .call nnn => formatA 0x2 nnn
  | .seImm x kk => formatXK 0x3 x kk
  | .sneImm x kk => formatXK 0x4 x kk
  | .seReg x y => formatXY 0x5 x y 0x0
  | .ldImm x kk => formatXK 0x6 x kk
  | .addImm x kk => formatXK 0x7 x kk
  | .ldReg x y => formatXY 0x8 x y 0x0
  | .orReg x y => formatXY 0x8 x y 0x1
  | .andReg x y => formatXY 0x8 x y 0x2
  | .xorReg x y => formatXY 0x8 x y 0x3
  | .addReg x y => formatXY 0x8 x y 0x4
  | .sub x y => formatXY 0x8 x y 0x5
  | .shr x y => formatXY 0x8 x y 0x6
  | .subn x y => formatXY 0x8 x y 0x7
  | .shl x y => formatXY 0x8 x y 0xE
  | .sneReg x y => formatXY 0x9 x y 0x0
  | .ldI nnn => formatA 0xA nnn
  | .jpV0 nnn => formatA 0xB nnn
  | .rnd x kk => formatXK 0xC x kk
  | .drw x y n => formatXY 0xD x y n
  | .skp x => formatX 0xE x 0x9E
  | .sknp x => formatX 0xE x 0xA1
  | .ldVxDt x => formatX 0xF x 0x07
  | .ldVxK x => formatX 0xF x 0x0A
  | .ldDtVx x => formatX 0xF x 0x15
  | .ldStVx x => formatX 0xF x 0x18
  | .addI x => formatX 0xF x 0x1E
  | .ldF x => formatX 0xF x 0x29
  | .ldB x => formatX 0xF x 0x33
  | .storeRegs x => formatX 0xF x 0x55
  | .loadRegs x => formatX 0xF x 0x65

/-- The bytes of an instruction in memory order (R42, R60). -/
def encodeBytes (i : Instr) : List Byte := [(bytesOfWord (encode i)).1, (bytesOfWord (encode i)).2]

/-- The 16-bit instruction word whose low `nbits` bits are those of w, all bits above them 0. -/
def tableWord (nbits w : Nat) : Word := BitVec.ofNat 16 (w % 2 ^ nbits)

/-- The instruction the decoder reads from a word numbered as spec/opcode_table.json numbers it: every row is one
16-bit word whose bit 0 is the least significant; it lies in memory most significant byte first (R42). -/
def decodeTableWord (nbits w : Nat) : Option Instr :=
  match decodeBytes [(bytesOfWord (tableWord nbits w)).1, (bytesOfWord (tableWord nbits w)).2] with
  | .ok (i, _) => some i
  | .error _ => none

end Sys2Proof
end

