-- ==== Sys2Proof/Machine/Fetch.lean ====
section
/-! DEFINITION. The parts of the Step cycle that stand before a handler (40_step_cycle.md R80 to R84): the breakpoint
check, the fetch, the advance of PC and the report of a word that is no instruction. -/

namespace Sys2Proof
namespace Machine

/-- The breakpoint check fires: PC is in `Brk` and is not the last address paused at (R81). -/
def State.breaks (s : State) : Bool := s.brk.contains s.pc && decide (s.lastBreak ≠ some s.pc)

/-- A pausing Step changes nothing but `LastBreak` (R81). -/
def pause (s : State) : Result := endStep .pausedAtBreakpoint { s with lastBreak := some s.pc }

/-- Both bytes of the word at PC lie in memory (20_memory.md R44). -/
def State.fetchable (s : State) : Bool := decide (s.pc.toNat ≤ 0xFFE)

/-- The word at PC, most significant byte first; no alignment is asked (R42, R45, R82). -/
def State.fetchWord (s : State) : Word := wordOfBytes (s.mem.read s.pc.toNat) (s.mem.read (s.pc.toNat + 1))

/-- The advance of PC, made once before the handler (R83). -/
def State.advance (s : State) : State := { s with pc := s.pc + 2 }

/-- A fetch outside memory: nothing changes, PC included (R44, R162). -/
def fetchFault (s : State) : Result := raise (.fetchOutOfRange s.pc) s

/-- A word that matches no pattern: PC stays advanced and nothing else changes; the report carries the fetch address and
the word (R84, R161). `s` is the state before the advance. -/
def reportInvalid (s : State) : Result := endStep (.invalidOpcode s.pc s.fetchWord) s.advance

/-- The bytes of a word stored at an address, as a fetch reads them (R42). -/
def Memory.storeWord (m : Memory) (a : Nat) (w : Word) : Memory :=
  Memory.writeBytes m a [(bytesOfWord w).1, (bytesOfWord w).2]

/-- The state made ready to fetch: where a fetch at PC would fault, PC is ROM_BASE; where the breakpoint check would
pause, `LastBreak` is PC already, as after the pause (R81). At reset neither is needed. -/
def State.readyToFetch (s : State) : State :=
  let t := if s.fetchable then s else { s with pc := BitVec.ofNat 16 Config.romBase }
  if t.breaks then { t with lastBreak := some t.pc } else t

end Machine
end Sys2Proof
end

