-- ==== Sys2Proof/Machine/Step.lean ====
section
/-! DEFINITION. `Step`, the one transition that executes instructions (40_step_cycle.md R80), and the state that holds a
given word where the next Step fetches. -/

namespace Sys2Proof
namespace Machine

/-- `Step`: breakpoint check, fetch, advance, decode, execute, in that order (R80, R167). The random byte a Step may use
is `Config.rnd` of the state's own counter (R88). -/
def step (s : State) : Host.Outcome State Fault Refusal :=
  if s.breaks then pause s
  else if s.fetchable then
    match decode s.fetchWord with
    | .ok i => exec i s.advance
    | .error _ => reportInvalid s
  else fetchFault s

/-- `s` with the instruction word `w` (numbered as the opcode table numbers it) stored where the next Step fetches, so
that the next Step runs it. It stands for the load of a program from outside the machine (70_reset_and_hazards.md
R192); see the assumption log, entry 4. -/
def State.withFetchWord (s : State) (nbits w : Nat) : State :=
  let t := s.readyToFetch
  { t with mem := t.mem.storeWord t.pc.toNat (tableWord nbits w) }

end Machine
end Sys2Proof
end

