-- ==== Sys2Proof/WellFormed.lean ====
section
/-! DEFINITION. The checks on what enters the machine from outside: a number that is to become an operand must fit its
field (30_encoding.md R62, R75), a program image must fit above ROM_BASE (70_reset_and_hazards.md R193), and a font has
80 bytes (20_memory.md R52). An `Instr` needs no further check: its operand types are the widths of the fields, and the
spec calls no operand value of a matching word illegal (R11, R69). -/

namespace Sys2Proof
namespace WellFormed

/-- A register index: 0 to 15 (R11, R62). -/
def reg? (k : Nat) : Option Reg := if h : k < 16 then some ⟨k, h⟩ else none

/-- A sprite height n: 0 to 15 (R62). -/
def imm4? (k : Nat) : Option Nibble := if k < 16 then some (BitVec.ofNat 4 k) else none

/-- An immediate kk: 0 to 255 (R62). -/
def imm8? (k : Nat) : Option Byte := if k < 256 then some (BitVec.ofNat 8 k) else none

/-- An address nnn: 0x000 to 0xFFF (R62). -/
def addr12? (k : Nat) : Option Addr12 := if k < 4096 then some (BitVec.ofNat 12 k) else none

/-- A program image: "at most 4096 − 512 = 3584 bytes"; any length up to that, odd or zero, is accepted (R193). -/
def rom (bytes : List Byte) : Bool := decide (bytes.length ≤ Config.romMax)

/-- A font: 80 bytes (R52). -/
def font (bytes : List Byte) : Bool := decide (bytes.length = Config.fontSize)

end WellFormed
end Sys2Proof
end

