-- ==== Sys2Proof/Machine/HostOps.lean ====
section
/-! DEFINITION. The host's operations (00_scope.md R8; 60_exceptions.md R171 to R183; 70_reset_and_hazards.md R190 to
R198). Each is atomic (20_memory.md R49), and a run of the system is a sequence of them in any order (R176) under the
boot contract (R196). None but a Step writes `lastResult`, and `Construct` makes a new machine. -/

namespace Sys2Proof
namespace Machine

/-! ### Resets -/

/-- `Construct()` with the font of the memory's default: power-on (R190). Every register, stack entry and cell outside
the font is 0, no key is pressed, the buffer is clear, no breakpoint is set, and PC is 0. -/
def State.construct : State := { State.reset with pc := 0 }

/-- `Construct()` with any FONT of 80 bytes, the parameter of R6: the bytes of FONT at 0x000 to 0x04F (R190, R52). -/
def State.constructWith (font : Vector Byte 80) : State :=
  { State.construct with mem := State.construct.mem.writeBytes 0 font.toList }

/-- What `LoadRom` returns (R192). -/
inductive LoadResult where
  | loaded
  | refused
  deriving DecidableEq, Repr

/-- What a load that fits leaves: registers, I, SP, DT, ST zero, the buffer clear, the image at ROM_BASE, PC at ROM_BASE,
no breakpoints; stack, keys and the rest of memory as they were (R192, R194). -/
def State.loadImage (s : State) (image : List Byte) : State :=
  { s with
    v := Vector.replicate 16 0
    i := 0
    sp := 0
    dt := 0
    st := 0
    fb := FrameBuffer.blank
    mem := s.mem.writeBytes Config.romBase image
    pc := BitVec.ofNat 16 Config.romBase
    brk := []
    lastBreak := none }

/-- `LoadRom(image)`: refused whole, with nothing changed, when the image does not fit (R192, R193). -/
def loadRom (image : List Byte) (s : State) : LoadResult × State :=
  if WellFormed.rom image then (.loaded, s.loadImage image) else (.refused, s)

/-! ### Timers -/

/-- A countdown by one, floor at 0 (R172, R173). -/
def countDown (t : Byte) : Byte := if t = 0 then 0 else t - 1

/-- `TickDelayTimer()` (R172). -/
def tickDelayTimer (s : State) : State := { s with dt := countDown s.dt }

/-- `TickSoundTimer()` (R173). -/
def tickSoundTimer (s : State) : State := { s with st := countDown s.st }

/-- `Tick60()`: the compound of the two (R174). -/
def tick60 (s : State) : State := tickSoundTimer (tickDelayTimer s)

/-! ### Keys and breakpoints -/

/-- Write one key level; an index above 15 changes nothing (R177). -/
def writeKey (k : Nat) (down : Bool) (s : State) : State :=
  if h : k < 16 then { s with key := s.key.set k down } else s

/-- `SetKey(index)` (R177). -/
def setKey (k : Nat) (s : State) : State := writeKey k true s

/-- `ClearKey(index)` (R177). -/
def clearKey (k : Nat) (s : State) : State := writeKey k false s

/-- A set of addresses, by rising address, with one address added. -/
def addAddr (a : Word) : List Word → List Word
  | [] => [a]
  | b :: rest => if a.toNat < b.toNat then a :: b :: rest else if a = b then b :: rest else b :: addAddr a rest

/-- A set of addresses with one address removed. -/
def removeAddr (a : Word) (l : List Word) : List Word := l.filter (fun b => decide (b ≠ a))

/-- `SetBreak(addr, flag)`; `LastBreak` is not changed (R183). -/
def setBreak (a : Word) (flag : Bool) (s : State) : State :=
  { s with brk := if flag then addAddr a s.brk else removeAddr a s.brk }

/-! ### Snapshots -/

/-- `GetFrameBufferSnapshot()`: the value of FB[x,y] for every cell; it changes nothing (R180). -/
def frameBufferSnapshot (s : State) : FrameBuffer := s.fb

/-- The source's own linear layout of the snapshot: cell (x, y) at index (31 − y) · 64 + x (R26, R180). -/
def linearSnapshot (s : State) : List Bool := (s.fb.toList.reverse.map (fun row => row.toList)).flatten

/-- What `GetRegisterSnapshot()` returns (R181). -/
structure RegisterSnapshot where
  v : Vector Byte 16
  i : Word
  pc : Word
  sp : Byte
  dt : Byte
  st : Byte
  stack : Vector Word 16
  deriving DecidableEq, Repr

/-- `GetRegisterSnapshot()`: all registers and all 16 stack entries; it changes nothing (R181). -/
def registerSnapshot (s : State) : RegisterSnapshot :=
  { v := s.v, i := s.i, pc := s.pc, sp := s.sp, dt := s.dt, st := s.st, stack := s.stack }

/-! ### The operations on the core -/

/-- One operation on the block, the rows of R8 that are in scope (R171, R180, R181). -/
inductive HostOp where
  | step
  | construct (font : Vector Byte 80)
  | loadRom (image : List Byte)
  | tickDelayTimer
  | tickSoundTimer
  | setKey (k : Nat)
  | clearKey (k : Nat)
  | setBreak (addr : Word) (flag : Bool)
  | getFrameBufferSnapshot
  | getRegisterSnapshot
  deriving DecidableEq, Repr

/-- What one operation does to the core, whole before the next begins (R49, R176). A snapshot changes nothing (R180,
R181). A new machine goes on with the random bytes not yet taken (assumption log, entry 3). -/
def perform (op : HostOp) (s : State) : Result :=
  match op with
  | .step => step s
  | .construct font => .next { State.constructWith font with draws := s.draws }
  | .loadRom image => .next (loadRom image s).2
  | .tickDelayTimer => .next (Sys2Proof.Machine.tickDelayTimer s)
  | .tickSoundTimer => .next (Sys2Proof.Machine.tickSoundTimer s)
  | .setKey k => .next (Sys2Proof.Machine.setKey k s)
  | .clearKey k => .next (Sys2Proof.Machine.clearKey k s)
  | .setBreak a flag => .next (Sys2Proof.Machine.setBreak a flag s)
  | .getFrameBufferSnapshot => .next s
  | .getRegisterSnapshot => .next s

/-- The host's operations on the core in the order it issues them, which the spec leaves free (R176). -/
def runOps : List HostOp → State → Result
  | [], s => .next s
  | op :: rest, s =>
    match perform op s with
    | .next t => runOps rest t
    | .fault r => .fault r
    | .refused r => .refused r

/-! ### The boot contract (R196) -/

/-- A machine and its host: the core, and whether `LoadRom` has loaded an image since `Construct`. The second is what
the boot contract of R196 needs and no part of the core's state (10_state.md R10); no rule of the core reads it. -/
structure Session where
  core : State
  loaded : Bool
  deriving DecidableEq, Repr

/-- What a session answers to an operation. -/
abbrev SessionResult := Host.Outcome Session Fault Refusal

/-- Power-on: constructed, nothing loaded (R190, R196). -/
def Session.powerOn (font : Vector Byte 80) : Session := { core := State.constructWith font, loaded := false }

/-- The launch state with an empty image: `Construct` and `LoadRom` are done (R191). -/
def Session.launch : Session := { core := State.reset, loaded := true }

/-- Whether an image has been loaded, after an operation: a `LoadRom` that is not refused loads one (R192, R193), and
`Construct` makes a new machine. -/
def loadedAfter (op : HostOp) (loaded : Bool) : Bool :=
  match op with
  | .construct _ => false
  | .loadRom image => loaded || WellFormed.rom image
  | .step | .tickDelayTimer | .tickSoundTimer | .setKey _ | .clearKey _ | .setBreak _ _
  | .getFrameBufferSnapshot | .getRegisterSnapshot => loaded

/-- One operation under the boot contract: a Step before the first `LoadRom` is refused, and everything else is
`perform` (R196). -/
def Session.perform (op : HostOp) (m : Session) : SessionResult :=
  if op = .step ∧ m.loaded = false then .refused .stepBeforeLoadRom
  else
    match Sys2Proof.Machine.perform op m.core with
    | .next t => .next { core := t, loaded := loadedAfter op m.loaded }
    | .fault r => .fault r
    | .refused r => .refused r

/-- A run of the system under the boot contract (R176, R196). -/
def Session.run : List HostOp → Session → SessionResult
  | [], m => .next m
  | op :: rest, m =>
    match m.perform op with
    | .next t => Session.run rest t
    | .fault r => .fault r
    | .refused r => .refused r

/-- A sequence of operations keeps the boot contract: no Step stands where no image has been loaded. -/
def bootContract : Bool → List HostOp → Bool
  | _, [] => true
  | loaded, op :: rest => (decide (op ≠ .step) || loaded) && bootContract (loadedAfter op loaded) rest

/-! ### The end of a run (R198) -/

/-- THE END OF A RUN, the model's own predicate, as R198 asks for one and gives it: "PC = a, the word at a is `JP a`,
and the last result was `ok`". The machine itself knows nothing of it and goes on. -/
def State.ended (s : State) : Bool :=
  decide (s.lastResult = .ok) && s.fetchable && decide (s.fetchWord = 0x1000 + s.pc)

end Machine
end Sys2Proof
end

