-- ==== Sys2Proof/Safety.lean ====
section
/-! DEFINITION. The terms the statements use: the invariant of the machine, what a safe run is, and equality of parts of
two states. -/

namespace Sys2Proof
namespace Machine

/-- A list of addresses rises strictly, so that equal sets are equal lists. -/
def risingAddrs : List Word → Bool
  | [] => true
  | [_] => true
  | a :: b :: rest => decide (a.toNat < b.toNat) && risingAddrs (b :: rest)

/-- THE INVARIANT: memory is in canonical form, SP is 0 to 15 (10_state.md R18), PC is at most 0x10FE and every return
address at most 0x1000 (R17), and the breakpoint set is in canonical form. -/
structure State.Inv (s : State) : Prop where
  mem : s.mem.wf = true
  sp : s.sp.toNat ≤ 15
  pc : s.pc.toNat ≤ 0x10FE
  stack : ∀ k : Fin 16, (s.stack[k.val]).toNat ≤ 0x1000
  brk : risingAddrs s.brk = true

/-- A result that ends a run that went wrong: `invalid-opcode` or any fault. "regard invalid-opcode and every fault(kind)
as the end of a run that went wrong" (60_exceptions.md R166). A pause and a wait are no errors (R164). -/
def StepResult.failed : StepResult → Bool
  | .ok => false
  | .pausedAtBreakpoint => false
  | .waitingForKey => false
  | .invalidOpcode _ _ => true
  | .fault _ => true

/-- A Step that did not fail: it gave a next state and its result is no failure. -/
def SafeStep (s : State) : Prop := ∃ t, step s = .next t ∧ t.lastResult.failed = false

/-- THE SAFE RUN of R166, the failure sticky, under the boot contract of R196: every operation gives a next session, and
no Step of the sequence fails. -/
def SafeRun : List HostOp → Session → Prop
  | [], _ => True
  | op :: rest, m =>
    ∃ t, m.perform op = .next t ∧ (op = .step → t.core.lastResult.failed = false) ∧ SafeRun rest t

/-! ### Frames: what an instruction leaves unchanged -/

/-- Every byte of memory reads the same. -/
def SameMem (s t : State) : Prop := ∀ a : Nat, t.mem.read a = s.mem.read a

/-- Every byte of memory outside the n bytes from `a` reads the same. -/
def SameMemOutside (a n : Nat) (s t : State) : Prop := ∀ b : Nat, b < a ∨ a + n ≤ b → t.mem.read b = s.mem.read b

/-- Every general register that is not in the list reads the same. -/
def SameRegsBut (rs : List Reg) (s t : State) : Prop := ∀ r : Reg, r ∉ rs → t.reg r = s.reg r

/-- Nothing but PC and the reported result differs: registers, I, SP, stack, timers, memory, keys, frame buffer,
breakpoints are all the same. -/
def OnlyPc (s t : State) : Prop := t = { s with pc := t.pc, lastResult := t.lastResult } ∧ SameMem s t

/-- Nothing but general registers in the list and the reported result differs; PC stays too. -/
def OnlyRegs (rs : List Reg) (s t : State) : Prop :=
  t = { s with v := t.v, lastResult := t.lastResult } ∧ SameRegsBut rs s t ∧ SameMem s t

/-- Nothing but I and the reported result differs. -/
def OnlyI (s t : State) : Prop := t = { s with i := t.i, lastResult := t.lastResult } ∧ SameMem s t

/-- Nothing but the n bytes of memory from `a` and the reported result differs. -/
def OnlyMem (a n : Nat) (s t : State) : Prop :=
  t = { s with mem := t.mem, lastResult := t.lastResult } ∧ SameMemOutside a n s t

/-! ### What an instruction reads and writes (10_state.md R13) -/

/-- The registers V0 to Vx. -/
def regsUpTo (x : Reg) : List Reg := (List.finRange 16).filter (fun r => decide (r ≤ x))

/-- The "reads" column of R13. -/
def regReads : Instr → List Reg
  | .cls | .ret | .jp _ | .call _ | .ldI _ => []
  | .seImm x _ | .sneImm x _ => [x]
  | .seReg x y | .sneReg x y => [x, y]
  | .ldImm _ _ => []
  | .addImm x _ => [x]
  | .ldReg _ y => [y]
  | .orReg x y | .andReg x y | .xorReg x y => [x, y]
  | .addReg x y | .sub x y | .subn x y => [x, y]
  | .shr x _ | .shl x _ => [x]
  | .jpV0 _ => [0]
  | .rnd _ _ => []
  | .drw x y _ => [x, y]
  | .skp x | .sknp x => [x]
  | .ldVxDt _ | .ldVxK _ => []
  | .ldDtVx x | .ldStVx x | .addI x | .ldF x | .ldB x => [x]
  | .storeRegs x => regsUpTo x
  | .loadRegs _ => []

/-- The "writes" column of R13. -/
def regWrites : Instr → List Reg
  | .cls | .ret | .jp _ | .call _ | .ldI _ => []
  | .seImm _ _ | .sneImm _ _ | .seReg _ _ | .sneReg _ _ => []
  | .ldImm x _ | .addImm x _ | .ldReg x _ => [x]
  | .orReg x _ | .andReg x _ | .xorReg x _ => [x]
  | .addReg x _ | .sub x _ | .subn x _ | .shr x _ | .shl x _ => [VF, x]
  | .jpV0 _ => []
  | .rnd x _ => [x]
  | .drw _ _ _ => [VF]
  | .skp _ | .sknp _ => []
  | .ldVxDt x | .ldVxK x => [x]
  | .ldDtVx _ | .ldStVx _ | .addI _ | .ldF _ | .ldB _ | .storeRegs _ => []
  | .loadRegs x => regsUpTo x

/-! ### Words and sprites, as the spec writes them -/

/-- The word `w` is the instruction `i`, in both directions. -/
def Encodes (w : Word) (i : Instr) : Prop := decode w = .ok i ∧ encode i = w

/-- The invalid words, group by group (30_encoding.md R69). -/
def InvalidWord (w : Word) : Prop :=
  (w.toNat / 0x1000 = 0x0 ∧ w.toNat ≠ 0x00E0 ∧ w.toNat ≠ 0x00EE) ∨
  (w.toNat / 0x1000 = 0x5 ∧ w.toNat % 16 ≠ 0) ∨
  (w.toNat / 0x1000 = 0x8 ∧ w.toNat % 16 ∈ [0x8, 0x9, 0xA, 0xB, 0xC, 0xD, 0xF]) ∨
  (w.toNat / 0x1000 = 0x9 ∧ w.toNat % 16 ≠ 0) ∨
  (w.toNat / 0x1000 = 0xE ∧ w.toNat % 256 ∉ [0x9E, 0xA1]) ∨
  (w.toNat / 0x1000 = 0xF ∧ w.toNat % 256 ∉ [0x07, 0x0A, 0x15, 0x18, 0x1E, 0x29, 0x33, 0x55, 0x65])

/-- `w` is the word in memory at PC: the byte at PC times 256 plus the byte after it (20_memory.md R42). -/
def FetchedWord (s : State) (w : Word) : Prop :=
  w.toNat = (s.mem.read s.pc.toNat).toNat * 256 + (s.mem.read (s.pc.toNat + 1)).toNat

/-- The breakpoint check of R81 does not pause the next Step. -/
def NoPause (s : State) : Prop := s.pc ∈ s.brk → s.lastBreak = some s.pc

/-- The cell (cx, cy) lies under a 1 bit of the n-row sprite at I drawn at (px, py): row r of the sprite is the byte at
I + r, column 0 its most significant bit, and every pixel wraps (44_display.md R145 to R147). -/
def Covered (s : State) (px py n cx cy : Nat) : Prop :=
  ∃ row < n, ∃ col < 8,
    (s.mem.read (s.i.toNat + row)).toNat / 2 ^ (7 - col) % 2 = 1 ∧ (px + col) % 64 = cx ∧ (py + row) % 32 = cy

/-- All the n bytes from I lie in memory, or there is none (20_memory.md R46). -/
def BytesInMemory (s : State) (n : Nat) : Prop := n = 0 ∨ s.i.toNat + n - 1 ≤ 0xFFF

end Machine
end Sys2Proof
end

