-- ==== Sys2Proof/Certificates/Slice0/Obligations.lean ====
section
/-! DEFINITION. The statements about the model, from the spec's numbered rules. In a statement about `exec` the state's
PC is already past the instruction's word (40_step_cycle.md R83). A clause that gives an instruction's word takes the
pattern from R66, which the spec marks as general knowledge for all words but 2nnn, 6xkk and 7xkk (D1, log entry 5). -/

open Sys2Proof Sys2Proof.Machine

/-! ### Encoding and decoding -/

/-- Every instruction, with every value of every operand, is what its own word decodes to; in memory, whatever bytes
follow it (30_encoding.md R60, R66, R72). -/
def Obligations.DecodeOfEncodeIsTheInstruction : Prop :=
  ∀ (i : Instr) (rest : List Byte),
    decode (encode i) = .ok i ∧ decodeBytes (encodeBytes i ++ rest) = .ok (i, rest)

/-- A word that decodes to an instruction is that instruction's word: no two words mean one instruction, the ignored y
field of SHR and SHL included (R63, R71). -/
def Obligations.EncodeOfDecodeIsTheWord : Prop :=
  ∀ (w : Word) (i : Instr), decode w = .ok i → encode i = w

/-- R68: no word matches two of the 34 patterns, so every order of the table selects the same row. -/
def Obligations.NoWordMatchesTwoPatterns : Prop :=
  opcodeTable.length = 34 ∧
  (∀ (w : Word) (a b : Fin opcodeTable.length),
    opcodeTable[a].pattern.accepts (Opcode.ofWord w) = true →
    opcodeTable[b].pattern.accepts (Opcode.ofWord w) = true → a = b) ∧
  ∀ (order : List Row), order.Perm opcodeTable → ∀ w : Word,
    order.find? (fun r => r.pattern.accepts (Opcode.ofWord w)) =
      opcodeTable.find? (fun r => r.pattern.accepts (Opcode.ofWord w))

/-- The words of R69 are exactly those the decoder rejects, by name; every other word decodes (R71). -/
def Obligations.InvalidWordsAreExactlyThoseListed : Prop :=
  ∀ w : Word, (InvalidWord w → decode w = .error (.invalidOpcode w)) ∧ (¬ InvalidWord w → ∃ i, decode w = .ok i)

/-- The words the source gives (R67), and words of the other formats from 95_test_vectors.md 2.1. -/
def Obligations.SampleWordsDecode : Prop :=
  decode 0x2DEF = .ok (.call 0xDEF) ∧ decode 0x6EFF = .ok (.ldImm 14 0xFF) ∧ decode 0x7E11 = .ok (.addImm 14 0x11) ∧
  decode 0x00EE = .ok .ret ∧ decode 0x812E = .ok (.shl 1 2) ∧ decode 0xD125 = .ok (.drw 1 2 5) ∧
  decode 0xE1A1 = .ok (.sknp 1) ∧ decode 0xF133 = .ok (.ldB 1) ∧ decode 0x0123 = .error (.invalidOpcode 0x0123)

/-- R62: the operands of every word are the masked and shifted words. -/
def Obligations.OperandsAreTheFieldsOfTheWord : Prop :=
  ∀ w : Word,
    ((Opcode.ofWord w).nnn).toNat = (w &&& 0x0FFF).toNat ∧ ((Opcode.ofWord w).kk).toNat = (w &&& 0x00FF).toNat ∧
    ((Opcode.ofWord w).n).toNat = (w &&& 0x000F).toNat ∧ ((Opcode.ofWord w).x).val = ((w &&& 0x0F00) >>> 8).toNat ∧
    ((Opcode.ofWord w).y).val = ((w &&& 0x00F0) >>> 4).toNat

/-! ### The Step cycle -/

/-- A Step that is not paused, at a PC of at most 0xFFE, runs the instruction whose word lies at PC, most significant
byte first, odd or even, on the state with PC advanced by 2 (R80, R82, R83; 20_memory.md R42, R45). -/
def Obligations.StepRunsTheDecodedInstruction : Prop :=
  ∀ (s : State) (w : Word) (i : Instr), NoPause s → s.pc.toNat ≤ 0xFFE → FetchedWord s w → decode w = .ok i →
    step s = exec i { s with pc := s.pc + 2 }

/-- R161: an invalid word is reported with its address, PC stays advanced, nothing else changes. Which words are invalid
rests on R69 and so on the patterns of R66 (D1, D2, log entry 5); that the report carries the address and the word is
what R161 suggests and the source does not fix (log entry 6). -/
def Obligations.InvalidWordIsReportedAndSkipped : Prop :=
  ∀ (s : State) (w : Word), NoPause s → s.pc.toNat ≤ 0xFFE → FetchedWord s w → InvalidWord w →
    step s = .next { s with pc := s.pc + 2, lastResult := .invalidOpcode s.pc w }

/-- A fetch with PC > 0xFFE reports `FetchOutOfRange` and changes nothing, so the next Step reports it again (R44, R162;
the spec's decision D7). -/
def Obligations.FetchOutsideMemoryFaultsAndRepeats : Prop :=
  ∀ s : State, NoPause s → 0xFFE < s.pc.toNat →
    step s = .next { s with lastResult := .fault (.fetchOutOfRange s.pc) } ∧
    step { s with lastResult := .fault (.fetchOutOfRange s.pc) } =
      .next { s with lastResult := .fault (.fetchOutOfRange s.pc) }

/-- The breakpoint check: a flagged PC that is not the last one paused at pauses the Step and changes `LastBreak` only;
a Step at the address last paused at does not pause; and no Step that does not pause changes `LastBreak` (R81; D17). This
is about Steps: the two resets clear `LastBreak` (R30, log entry 17), which the statements about them say. -/
def Obligations.BreakpointPausesOnce : Prop :=
  (∀ s : State, s.pc ∈ s.brk → s.lastBreak ≠ some s.pc →
    step s = .next { s with lastBreak := some s.pc, lastResult := .pausedAtBreakpoint }) ∧
  (∀ s t : State, NoPause s → step s = .next t → t.lastResult ≠ .pausedAtBreakpoint) ∧
  (∀ s t : State, step s = .next t → t.lastResult ≠ .pausedAtBreakpoint → t.lastBreak = s.lastBreak)

/-- The table of R86: for each result a Step can return, when it is returned and what it changes. -/
def Obligations.EachResultChangesWhatItsRowSays : Prop :=
  ∀ s t : State, step s = .next t →
    match t.lastResult with
    | .ok => ∃ w i, FetchedWord s w ∧ decode w = .ok i ∧ exec i { s with pc := s.pc + 2 } = .next t
    | .waitingForKey =>
      (∃ w x, FetchedWord s w ∧ decode w = .ok (.ldVxK x)) ∧ (∀ k, s.keyDown k = false) ∧
        t = { s with lastResult := .waitingForKey }
    | .invalidOpcode a w =>
      a = s.pc ∧ FetchedWord s w ∧ InvalidWord w ∧ t = { s with pc := s.pc + 2, lastResult := .invalidOpcode a w }
    | .pausedAtBreakpoint =>
      s.pc ∈ s.brk ∧ t = { s with lastBreak := some s.pc, lastResult := .pausedAtBreakpoint }
    | .fault (.fetchOutOfRange pc) =>
      pc = s.pc ∧ 0xFFE < s.pc.toNat ∧ t = { s with lastResult := .fault (.fetchOutOfRange pc) }
    | .fault kind => s.pc.toNat ≤ 0xFFE ∧ t = { s with pc := s.pc + 2, lastResult := .fault kind }

/-- The four handler faults: each is raised exactly by the instructions and on the condition of R163's table, carries
the information of its row, and changes nothing (D4, D5, D6, D8, D16). -/
def Obligations.HandlerFaultsAreThoseOfTheTable : Prop :=
  ∀ (i : Instr) (s t : State) (kind : FaultKind), exec i s = .next t →
    (t.lastResult = .fault kind ↔
      (∃ nnn, i = .call nnn ∧ 15 ≤ s.sp.toNat ∧ kind = .stackOverflow s.sp) ∨
      (i = .ret ∧ s.sp = 0 ∧ kind = .stackUnderflow) ∨
      (∃ x y n, i = .drw x y n ∧ 1 ≤ n.toNat ∧ 0xFFF < s.i.toNat + n.toNat - 1 ∧
        kind = .memOutOfRange s.i n.toNat) ∨
      (∃ x, i = .ldB x ∧ 0xFFF < s.i.toNat + 2 ∧ kind = .memOutOfRange s.i 3) ∨
      (∃ x, (i = .storeRegs x ∨ i = .loadRegs x) ∧ 0xFFF < s.i.toNat + x.val ∧
        kind = .memOutOfRange s.i (x.val + 1)) ∨
      (∃ x, (i = .skp x ∨ i = .sknp x) ∧ 15 < (s.reg x).toNat ∧ kind = .keyIndexOutOfRange (s.reg x))) ∧
    (t.lastResult = .fault kind → t = { s with lastResult := .fault kind })

/-! ### Invariants -/

/-- Every Step keeps the invariant: memory canonical, SP at most 15 (R18), PC at most 0x10FE and return addresses at
most 0x1000 (R17), the breakpoint set canonical. -/
def Obligations.EveryStepKeepsTheInvariant : Prop :=
  ∀ s t : State, s.Inv → step s = .next t → t.Inv

/-- The invariant holds after reset and after power-on with any font. -/
def Obligations.ResetMeetsTheInvariant : Prop :=
  State.reset.Inv ∧ ∀ font : Vector Byte 80, (State.constructWith font).Inv

/-- From EVERY state with the invariant, every host operation answers a next state with the invariant (60_exceptions.md
R171); so from power-on every sequence of operations and Steps, in any order, runs to its end (R176; R17, R18), and the
model's own fault is never met. An image too long to load leaves the state as it is (R193). A Step before the first
LoadRom runs here by the rules alone, the model's choice, log entry 8; under the boot contract it is refused
(`BootContractIsEnforced`). -/
def Obligations.NoSequenceOfOperationsStops : Prop :=
  (∀ (s : State) (op : HostOp), s.Inv → ∃ t, perform op s = .next t ∧ t.Inv) ∧
  ∀ (font : Vector Byte 80) (ops : List HostOp), ∃ t, runOps ops (State.constructWith font) = .next t ∧ t.Inv

/-- The boot contract of R196: in a session a Step before the first LoadRom is refused and changes nothing; from
power-on a sequence that keeps the contract runs to its end, with the core as the operations alone leave it, and one
that does not is refused. That Construct makes a machine with nothing loaded is the model's choice, log entry 8. -/
def Obligations.BootContractIsEnforced : Prop :=
  (∀ m : Session, m.loaded = false → m.perform .step = .refused .stepBeforeLoadRom) ∧
  (∀ (m : Session) (image : List Byte), image.length ≤ 3584 →
    ∃ t, m.perform (.loadRom image) = .next t ∧ t.loaded = true ∧ t.perform .step =
      match step t.core with
      | .next u => .next { core := u, loaded := true }
      | .fault r => .fault r
      | .refused r => .refused r) ∧
  ∀ (font : Vector Byte 80) (ops : List HostOp),
    (bootContract false ops = true → ∃ t, (Session.powerOn font).run ops = .next t ∧ t.core.Inv ∧
      runOps ops (State.constructWith font) = .next t.core) ∧
    (bootContract false ops = false → (Session.powerOn font).run ops = .refused .stepBeforeLoadRom)

/-- The end of a run (R198; the predicate is the model's own, log entry 14): PC is at a `JP` to itself and the last
result was `ok`. A Step that does not pause changes nothing at all there, and no host operation but Construct, LoadRom
and a pausing Step ends it. -/
def Obligations.EndedRunStaysEnded : Prop :=
  ∀ s : State,
    (s.ended = true ↔ s.lastResult = .ok ∧ s.pc.toNat ≤ 0xFFE ∧
      ∃ (w : Word) (nnn : Addr12), FetchedWord s w ∧ Encodes w (.jp nnn) ∧ nnn.toNat = s.pc.toNat) ∧
    (s.ended = true → NoPause s → step s = .next s) ∧
    ∀ (op : HostOp) (t : State), s.ended = true → op ≠ .step → (∀ font, op ≠ .construct font) →
      (∀ image, op ≠ .loadRom image) → perform op s = .next t → t.ended = true

/-! ### Whole-machine rules -/

/-- R13: a register outside an instruction's write set keeps its value, and a register outside its read set does not
matter: with another value in it, the instruction gives the same state but for that register, which keeps the new value
unless the instruction writes it, and gets the same value as before when the instruction executes and writes it. -/
def Obligations.InstructionsReadAndWriteOnlyTheirRegisters : Prop :=
  ∀ (i : Instr) (s t : State), exec i s = .next t →
    SameRegsBut (regWrites i) s t ∧
    ∀ (r : Reg) (b : Byte), r ∉ regReads i → ∃ u, exec i (s.setReg r b) = .next u ∧
      SameRegsBut [r] t u ∧ u = { t with v := u.v } ∧ (r ∉ regWrites i → u.reg r = b) ∧
      (r ∈ regWrites i → t.lastResult = .ok → u.reg r = t.reg r)

/-- Each store is written only by the instructions the spec names, and the keys and the debug facility by none (R14,
R18, R19, R21, R22, R24, R25, R26, R28; 43_index_memory.md R137). -/
def Obligations.OnlyTheNamedInstructionsWriteEachStore : Prop :=
  ∀ (i : Instr) (s t : State), exec i s = .next t →
    (t.mem ≠ s.mem → ∃ x, i = .ldB x ∨ i = .storeRegs x) ∧
    (t.fb ≠ s.fb → i = .cls ∨ ∃ x y n, i = .drw x y n) ∧
    (t.stack ≠ s.stack → ∃ nnn, i = .call nnn) ∧
    (t.sp ≠ s.sp → i = .ret ∨ ∃ nnn, i = .call nnn) ∧
    (t.i ≠ s.i → (∃ nnn, i = .ldI nnn) ∨ ∃ x, i = .addI x ∨ i = .ldF x) ∧
    (t.dt ≠ s.dt → ∃ x, i = .ldDtVx x) ∧
    (t.st ≠ s.st → ∃ x, i = .ldStVx x) ∧
    t.key = s.key ∧ t.brk = s.brk ∧ t.lastBreak = s.lastBreak

/-- VF changes only by the six instructions that write it as a flag, or as the named destination of another (R12). -/
def Obligations.FlagChangesOnlyByItsWriters : Prop :=
  ∀ (i : Instr) (s t : State), exec i s = .next t → t.reg VF ≠ s.reg VF →
    (∃ x y, i = .addReg x y ∨ i = .sub x y ∨ i = .subn x y ∨ i = .shr x y ∨ i = .shl x y) ∨
    (∃ x y n, i = .drw x y n) ∨
    (∃ kk y, i = .ldImm VF kk ∨ i = .addImm VF kk ∨ i = .rnd VF kk ∨ i = .ldReg VF y ∨ i = .orReg VF y ∨
      i = .andReg VF y ∨ i = .xorReg VF y) ∨
    i = .ldVxDt VF ∨ i = .ldVxK VF ∨ i = .loadRegs VF

/-- No instruction reads `Brk` or `LastBreak`: with others, it gives the same state but for them (60_exceptions.md
R182). -/
def Obligations.BreakpointsAreInvisibleToInstructions : Prop :=
  ∀ (i : Instr) (s t : State) (brk : List Word) (last : Option Word), exec i s = .next t →
    exec i { s with brk := brk, lastBreak := last } = .next { t with brk := brk, lastBreak := last }

/-- An instruction that is not RND neither reads nor takes a random byte (R88). -/
def Obligations.OnlyRandomTakesTheRandomByte : Prop :=
  ∀ (i : Instr) (s t : State) (d : Nat), (∀ x kk, i ≠ .rnd x kk) → exec i s = .next t →
    t.draws = s.draws ∧ exec i { s with draws := d } = .next { t with draws := d }

/-! ### Memory -/

/-- A byte written reads back and every other byte reads as before; two writes to different addresses may change places
(20_memory.md R50, R54). -/
def Obligations.ByteWriteChangesThatByteOnly : Prop :=
  ∀ (m : Memory) (a b : Nat) (v w : Byte), m.wf = true → a < 4096 →
    (m.write a v).wf = true ∧ (m.write a v).read a = v ∧ (b ≠ a → (m.write a v).read b = m.read b) ∧
    (b < 4096 → b ≠ a → (m.write a v).write b w = (m.write b w).write a v)

/-- Equal memories are equal data: two canonical memories whose 4096 bytes read the same are the same list. -/
def Obligations.CanonicalMemoriesThatReadAlikeAreEqual : Prop :=
  ∀ m m' : Memory, m.wf = true → m'.wf = true → (∀ a < 4096, m.read a = m'.read a) → m = m'

/-- R56: the bytes LD [I],Vx and LD B,Vx store are the very bytes the next fetch of those addresses sees, with no fence.
The fetch may be at any address p: each of its two bytes is the stored one where it lies in the stored range, and as
before the instruction where it does not, so a fetch that straddles an end of the range is covered. -/
def Obligations.StoresAreSeenByTheNextFetch : Prop :=
  ∀ (s t : State) (x : Reg) (p : Word), s.mem.wf = true → t.lastResult = .ok →
    (exec (.storeRegs x) s = .next t → ∃ w, FetchedWord { t with pc := p } w ∧
      (∀ j : Reg, j ≤ x → p.toNat = s.i.toNat + j.val → w.toNat / 256 = (s.reg j).toNat) ∧
      (∀ j : Reg, j ≤ x → p.toNat + 1 = s.i.toNat + j.val → w.toNat % 256 = (s.reg j).toNat) ∧
      (p.toNat < s.i.toNat ∨ s.i.toNat + x.val < p.toNat → w.toNat / 256 = (s.mem.read p.toNat).toNat) ∧
      (p.toNat + 1 < s.i.toNat ∨ s.i.toNat + x.val < p.toNat + 1 →
        w.toNat % 256 = (s.mem.read (p.toNat + 1)).toNat)) ∧
    (exec (.ldB x) s = .next t → ∃ w, FetchedWord { t with pc := p } w ∧
      (p.toNat = s.i.toNat → w.toNat / 256 = (s.reg x).toNat / 100) ∧
      (p.toNat = s.i.toNat + 1 → w.toNat / 256 = (s.reg x).toNat / 10 % 10) ∧
      (p.toNat = s.i.toNat + 2 → w.toNat / 256 = (s.reg x).toNat % 10) ∧
      (p.toNat + 1 = s.i.toNat → w.toNat % 256 = (s.reg x).toNat / 100) ∧
      (p.toNat + 1 = s.i.toNat + 1 → w.toNat % 256 = (s.reg x).toNat / 10 % 10) ∧
      (p.toNat + 1 = s.i.toNat + 2 → w.toNat % 256 = (s.reg x).toNat % 10) ∧
      (p.toNat < s.i.toNat ∨ s.i.toNat + 2 < p.toNat → w.toNat / 256 = (s.mem.read p.toNat).toNat) ∧
      (p.toNat + 1 < s.i.toNat ∨ s.i.toNat + 2 < p.toNat + 1 →
        w.toNat % 256 = (s.mem.read (p.toNat + 1)).toNat))

/-! ### Control transfer -/

/-- R102: JP nnn. The word 1nnn: log entry 5. -/
def Obligations.JumpSetsPc : Prop :=
  ∀ (nnn : Addr12) (s : State), Encodes (BitVec.ofNat 16 (0x1000 + nnn.toNat)) (.jp nnn) ∧
    ∃ t, exec (.jp nnn) s = .next t ∧ t.lastResult = .ok ∧ t.pc.toNat = nnn.toNat ∧ OnlyPc s t

/-- R103: CALL nnn pushes PC (the address after the CALL) at SP + 1 and jumps; with SP ≥ 15 it faults and changes
nothing (the spec's decision D4). -/
def Obligations.CallPushesTheReturnAddress : Prop :=
  ∀ (nnn : Addr12) (s : State), Encodes (BitVec.ofNat 16 (0x2000 + nnn.toNat)) (.call nnn) ∧
    (s.sp.toNat < 15 → ∃ t, exec (.call nnn) s = .next t ∧ t.lastResult = .ok ∧
      t.sp.toNat = s.sp.toNat + 1 ∧ t.pc.toNat = nnn.toNat ∧
      (∀ k : Fin 16, t.stack[k.val] = if k.val = s.sp.toNat + 1 then s.pc else s.stack[k.val]) ∧
      SameMem s t ∧ t = { s with sp := t.sp, pc := t.pc, stack := t.stack, lastResult := .ok }) ∧
    (15 ≤ s.sp.toNat → exec (.call nnn) s = .next { s with lastResult := .fault (.stackOverflow s.sp) })

/-- R101: RET takes PC from the entry at SP, which it does not erase, and subtracts 1 from SP; with SP = 0 it faults and
changes nothing (the spec's decision D5). With SP > 15, where no run comes, the model stops: the model's choice, log
entry 7. -/
def Obligations.ReturnPopsTheReturnAddress : Prop :=
  Encodes 0x00EE .ret ∧ ∀ s : State,
    (∀ k : Fin 16, s.sp.toNat = k.val → 0 < k.val → ∃ t, exec .ret s = .next t ∧ t.lastResult = .ok ∧
      t.pc = s.stack[k.val] ∧ t.sp.toNat = k.val - 1 ∧
      SameMem s t ∧ t = { s with sp := t.sp, pc := t.pc, lastResult := .ok }) ∧
    (s.sp.toNat = 0 → exec .ret s = .next { s with lastResult := .fault .stackUnderflow }) ∧
    (15 < s.sp.toNat → exec .ret s = .fault .stackPointerOutOfRange)

/-- A CALL that succeeds, then a RET from the subroutine at any later PC with the stack as the CALL left it, resumes
after the CALL with SP and the stack's live entries as before (10_state.md R19, R20). -/
def Obligations.ReturnAfterCallResumesAfterTheCall : Prop :=
  ∀ (nnn : Addr12) (s t u : State), exec (.call nnn) s = .next t → t.lastResult = .ok →
    u.sp = t.sp → u.stack = t.stack → ∃ r, exec .ret u = .next r ∧ r.lastResult = .ok ∧ r.pc = s.pc ∧ r.sp = s.sp ∧
      ∀ k : Fin 16, k.val ≤ s.sp.toNat → r.stack[k.val] = s.stack[k.val]

/-- R104, R105: SE Vx,kk and SNE Vx,kk. The words 3xkk and 4xkk: log entry 5. -/
def Obligations.SkipComparesWithTheImmediate : Prop :=
  ∀ (x : Reg) (kk : Byte) (s : State),
    (Encodes (BitVec.ofNat 16 (0x3000 + x.val * 256 + kk.toNat)) (.seImm x kk) ∧
      ∃ t, exec (.seImm x kk) s = .next t ∧ t.lastResult = .ok ∧
        t.pc = (if (s.reg x).toNat = kk.toNat then s.pc + 2 else s.pc) ∧ OnlyPc s t) ∧
    (Encodes (BitVec.ofNat 16 (0x4000 + x.val * 256 + kk.toNat)) (.sneImm x kk) ∧
      ∃ t, exec (.sneImm x kk) s = .next t ∧ t.lastResult = .ok ∧
        t.pc = (if (s.reg x).toNat = kk.toNat then s.pc else s.pc + 2) ∧ OnlyPc s t)

/-- R106, R108: SE Vx,Vy and SNE Vx,Vy. The words 5xy0 and 9xy0: log entry 5. -/
def Obligations.SkipComparesTwoRegisters : Prop :=
  ∀ (x y : Reg) (s : State),
    (Encodes (BitVec.ofNat 16 (0x5000 + x.val * 256 + y.val * 16)) (.seReg x y) ∧
      ∃ t, exec (.seReg x y) s = .next t ∧ t.lastResult = .ok ∧
        t.pc = (if (s.reg x).toNat = (s.reg y).toNat then s.pc + 2 else s.pc) ∧ OnlyPc s t) ∧
    (Encodes (BitVec.ofNat 16 (0x9000 + x.val * 256 + y.val * 16)) (.sneReg x y) ∧
      ∃ t, exec (.sneReg x y) s = .next t ∧ t.lastResult = .ok ∧
        t.pc = (if (s.reg x).toNat = (s.reg y).toNat then s.pc else s.pc + 2) ∧ OnlyPc s t)

/-- R107: JP V0,nnn; the sum is not reduced modulo 0x1000. The word Bnnn: log entry 5. -/
def Obligations.JumpWithOffsetAddsRegisterZero : Prop :=
  ∀ (nnn : Addr12) (s : State), Encodes (BitVec.ofNat 16 (0xB000 + nnn.toNat)) (.jpV0 nnn) ∧
    ∃ t, exec (.jpV0 nnn) s = .next t ∧ t.lastResult = .ok ∧ t.pc.toNat = (s.reg 0).toNat + nnn.toNat ∧ OnlyPc s t

/-! ### Register loads, arithmetic, logic, shifts, random -/

/-- R111, R114: LD Vx,kk and LD Vx,Vy. The word 8xy0: log entry 5. -/
def Obligations.LoadsSetTheRegister : Prop :=
  (∀ (x : Reg) (kk : Byte) (s : State), Encodes (BitVec.ofNat 16 (0x6000 + x.val * 256 + kk.toNat)) (.ldImm x kk) ∧
    ∃ t, exec (.ldImm x kk) s = .next t ∧ t.lastResult = .ok ∧ t.reg x = kk ∧ OnlyRegs [x] s t) ∧
  (∀ (x y : Reg) (s : State), Encodes (BitVec.ofNat 16 (0x8000 + x.val * 256 + y.val * 16)) (.ldReg x y) ∧
    ∃ t, exec (.ldReg x y) s = .next t ∧ t.lastResult = .ok ∧ t.reg x = s.reg y ∧ OnlyRegs [x] s t)

/-- R113: ADD Vx,kk wraps and writes no flag. -/
def Obligations.AddImmediateWrapsWithoutFlag : Prop :=
  ∀ (x : Reg) (kk : Byte) (s : State), Encodes (BitVec.ofNat 16 (0x7000 + x.val * 256 + kk.toNat)) (.addImm x kk) ∧
    ∃ t, exec (.addImm x kk) s = .next t ∧ t.lastResult = .ok ∧
      (t.reg x).toNat = ((s.reg x).toNat + kk.toNat) % 256 ∧ OnlyRegs [x] s t

/-- R115, R121, R122: OR, AND and XOR, bit by bit, with no flag. The words 8xy1 to 8xy3: log entry 5. -/
def Obligations.LogicIsBitwiseWithoutFlag : Prop :=
  ∀ (x y : Reg) (s : State),
    (Encodes (BitVec.ofNat 16 (0x8001 + x.val * 256 + y.val * 16)) (.orReg x y) ∧
      ∃ t, exec (.orReg x y) s = .next t ∧ t.lastResult = .ok ∧
        (∀ k : Nat, (t.reg x).getLsbD k = ((s.reg x).getLsbD k || (s.reg y).getLsbD k)) ∧ OnlyRegs [x] s t) ∧
    (Encodes (BitVec.ofNat 16 (0x8002 + x.val * 256 + y.val * 16)) (.andReg x y) ∧
      ∃ t, exec (.andReg x y) s = .next t ∧ t.lastResult = .ok ∧
        (∀ k : Nat, (t.reg x).getLsbD k = ((s.reg x).getLsbD k && (s.reg y).getLsbD k)) ∧ OnlyRegs [x] s t) ∧
    (Encodes (BitVec.ofNat 16 (0x8003 + x.val * 256 + y.val * 16)) (.xorReg x y) ∧
      ∃ t, exec (.xorReg x y) s = .next t ∧ t.lastResult = .ok ∧
        (∀ k : Nat, (t.reg x).getLsbD k = ((s.reg x).getLsbD k ^^ (s.reg y).getLsbD k)) ∧ OnlyRegs [x] s t)

/-- R116: ADD Vx,Vy; VF is the carry, written before the result, so with x = 15 the result stays (R112, the spec's
decision D3). -/
def Obligations.AddSetsTheCarry : Prop :=
  ∀ (x y : Reg) (s : State), Encodes (BitVec.ofNat 16 (0x8004 + x.val * 256 + y.val * 16)) (.addReg x y) ∧
    ∃ t, exec (.addReg x y) s = .next t ∧ t.lastResult = .ok ∧
      (t.reg x).toNat = ((s.reg x).toNat + (s.reg y).toNat) % 256 ∧
      (x ≠ VF → t.reg VF = if (s.reg x).toNat + (s.reg y).toNat > 255 then 1 else 0) ∧ OnlyRegs [x, VF] s t

/-- R117, R119: SUB and SUBN; VF is 1 exactly when the minuend is strictly greater. -/
def Obligations.SubtractionsSetTheStrictFlag : Prop :=
  ∀ (x y : Reg) (s : State),
    (Encodes (BitVec.ofNat 16 (0x8005 + x.val * 256 + y.val * 16)) (.sub x y) ∧
      ∃ t, exec (.sub x y) s = .next t ∧ t.lastResult = .ok ∧
        (t.reg x).toNat = ((s.reg x).toNat + 256 - (s.reg y).toNat) % 256 ∧
        (x ≠ VF → t.reg VF = if (s.reg x).toNat > (s.reg y).toNat then 1 else 0) ∧ OnlyRegs [x, VF] s t) ∧
    (Encodes (BitVec.ofNat 16 (0x8007 + x.val * 256 + y.val * 16)) (.subn x y) ∧
      ∃ t, exec (.subn x y) s = .next t ∧ t.lastResult = .ok ∧
        (t.reg x).toNat = ((s.reg y).toNat + 256 - (s.reg x).toNat) % 256 ∧
        (x ≠ VF → t.reg VF = if (s.reg y).toNat > (s.reg x).toNat then 1 else 0) ∧ OnlyRegs [x, VF] s t)

/-- R118, R120: SHR and SHL by one, the lost bit in VF; every y gives the same result. -/
def Obligations.ShiftsMoveTheLostBitToTheFlag : Prop :=
  ∀ (x y : Reg) (s : State),
    (Encodes (BitVec.ofNat 16 (0x8006 + x.val * 256 + y.val * 16)) (.shr x y) ∧
      ∃ t, exec (.shr x y) s = .next t ∧ t.lastResult = .ok ∧ (t.reg x).toNat = (s.reg x).toNat / 2 ∧
        (x ≠ VF → (t.reg VF).toNat = (s.reg x).toNat % 2) ∧ OnlyRegs [x, VF] s t) ∧
    (Encodes (BitVec.ofNat 16 (0x800E + x.val * 256 + y.val * 16)) (.shl x y) ∧
      ∃ t, exec (.shl x y) s = .next t ∧ t.lastResult = .ok ∧ (t.reg x).toNat = (s.reg x).toNat * 2 % 256 ∧
        (x ≠ VF → (t.reg VF).toNat = (s.reg x).toNat / 128) ∧ OnlyRegs [x, VF] s t)

/-- R123: RND Vx,kk is the next random byte, whatever it is, masked by kk; every bit that is 0 in kk is 0. That the
bytes are numbered by a counter is the model's choice, log entry 3. -/
def Obligations.RandomIsMasked : Prop :=
  ∀ (x : Reg) (kk : Byte) (s : State), Encodes (BitVec.ofNat 16 (0xC000 + x.val * 256 + kk.toNat)) (.rnd x kk) ∧
    ∃ t, exec (.rnd x kk) s = .next t ∧ t.lastResult = .ok ∧ t.reg x = Config.rnd s.draws &&& kk ∧
      (∀ k : Nat, kk.getLsbD k = false → (t.reg x).getLsbD k = false) ∧ t.draws = s.draws + 1 ∧
      SameRegsBut [x] s t ∧ SameMem s t ∧ t = { s with v := t.v, draws := t.draws, lastResult := .ok }

/-! ### Index register and memory -/

/-- R131, R132, R133: LD I,nnn, ADD I,Vx (16 bits, no flag) and LD F,Vx (Vx not masked). -/
def Obligations.IndexInstructionsSetI : Prop :=
  (∀ (nnn : Addr12) (s : State), Encodes (BitVec.ofNat 16 (0xA000 + nnn.toNat)) (.ldI nnn) ∧
    ∃ t, exec (.ldI nnn) s = .next t ∧ t.lastResult = .ok ∧ t.i.toNat = nnn.toNat ∧ OnlyI s t) ∧
  (∀ (x : Reg) (s : State), Encodes (BitVec.ofNat 16 (0xF01E + x.val * 256)) (.addI x) ∧
    ∃ t, exec (.addI x) s = .next t ∧ t.lastResult = .ok ∧
      t.i.toNat = (s.i.toNat + (s.reg x).toNat) % 65536 ∧ OnlyI s t) ∧
  (∀ (x : Reg) (s : State), Encodes (BitVec.ofNat 16 (0xF029 + x.val * 256)) (.ldF x) ∧
    ∃ t, exec (.ldF x) s = .next t ∧ t.lastResult = .ok ∧ t.i.toNat = (s.reg x).toNat * 5 ∧ OnlyI s t)

/-- R136: LD B,Vx stores the three digits at I, I+1, I+2; with a byte above 0xFFF it faults and stores nothing (the
spec's decision D6). -/
def Obligations.DigitsAreStoredAtI : Prop :=
  ∀ (x : Reg) (s : State), s.mem.wf = true → Encodes (BitVec.ofNat 16 (0xF033 + x.val * 256)) (.ldB x) ∧
    (s.i.toNat + 2 ≤ 0xFFF → ∃ t, exec (.ldB x) s = .next t ∧ t.lastResult = .ok ∧
      (t.mem.read s.i.toNat).toNat = (s.reg x).toNat / 100 ∧
      (t.mem.read (s.i.toNat + 1)).toNat = (s.reg x).toNat / 10 % 10 ∧
      (t.mem.read (s.i.toNat + 2)).toNat = (s.reg x).toNat % 10 ∧ OnlyMem s.i.toNat 3 s t) ∧
    (0xFFF < s.i.toNat + 2 → exec (.ldB x) s = .next { s with lastResult := .fault (.memOutOfRange s.i 3) })

/-- R134: LD [I],Vx stores V0 to Vx inclusive at I, I+1, ... and leaves I; with a byte above 0xFFF it faults and stores
nothing (D6). -/
def Obligations.RegistersAreStoredAtI : Prop :=
  ∀ (x : Reg) (s : State), s.mem.wf = true → Encodes (BitVec.ofNat 16 (0xF055 + x.val * 256)) (.storeRegs x) ∧
    (s.i.toNat + x.val ≤ 0xFFF → ∃ t, exec (.storeRegs x) s = .next t ∧ t.lastResult = .ok ∧
      (∀ j : Reg, j ≤ x → t.mem.read (s.i.toNat + j.val) = s.reg j) ∧ OnlyMem s.i.toNat (x.val + 1) s t) ∧
    (0xFFF < s.i.toNat + x.val →
      exec (.storeRegs x) s = .next { s with lastResult := .fault (.memOutOfRange s.i (x.val + 1)) })

/-- R135: LD Vx,[I] loads V0 to Vx inclusive from I, I+1, ... and leaves I and the registers above x; with a byte above
0xFFF it faults and loads nothing (D6). -/
def Obligations.RegistersAreLoadedFromI : Prop :=
  ∀ (x : Reg) (s : State), Encodes (BitVec.ofNat 16 (0xF065 + x.val * 256)) (.loadRegs x) ∧
    (s.i.toNat + x.val ≤ 0xFFF → ∃ t, exec (.loadRegs x) s = .next t ∧ t.lastResult = .ok ∧
      (∀ j : Reg, j ≤ x → t.reg j = s.mem.read (s.i.toNat + j.val)) ∧ OnlyRegs (regsUpTo x) s t) ∧
    (0xFFF < s.i.toNat + x.val →
      exec (.loadRegs x) s = .next { s with lastResult := .fault (.memOutOfRange s.i (x.val + 1)) })

/-- Storing V0 to Vx and loading them back at the same I gives the registers back, whatever they held in between
(43_index_memory.md R134, R135). -/
def Obligations.LoadAfterStoreRestoresTheRegisters : Prop :=
  ∀ (x : Reg) (s t : State) (v : Vector Byte 16), s.mem.wf = true → exec (.storeRegs x) s = .next t →
    t.lastResult = .ok → ∃ u, exec (.loadRegs x) { t with v := v } = .next u ∧ u.lastResult = .ok ∧
      (∀ j : Reg, j ≤ x → u.reg j = s.reg j) ∧ ∀ j : Reg, x < j → u.reg j = v[j.val]

/-! ### Display -/

/-- R144: CLS unsets every cell and nothing else. The word 00E0: log entry 5. -/
def Obligations.ClearUnsetsEveryCell : Prop :=
  Encodes 0x00E0 .cls ∧ ∀ s : State, ∃ t, exec .cls s = .next t ∧ t.lastResult = .ok ∧
    (∀ x y : Nat, t.fb.pixel x y = false) ∧ SameMem s t ∧ t = { s with fb := t.fb, lastResult := .ok }

/-- R142: SetPixel toggles the cell of the wrapped coordinates and no other, and says whether it was set. The collision is
OR-ed into the one found so far, as R146 asks; that the operation itself does so is the model's choice, log entry 13. -/
def Obligations.SetPixelTogglesTheWrappedCell : Prop :=
  ∀ (d : Drawn) (x y cx cy : Nat),
    ((d.setPixel x y).fb.pixel cx cy =
      if cx % 64 = x % 64 ∧ cy % 32 = y % 32 then !d.fb.pixel cx cy else d.fb.pixel cx cy) ∧
    (d.setPixel x y).collided = (d.collided || d.fb.pixel x y) ∧
    d.fb.pixel x y = d.fb.pixel (x % 64) (y % 32) ∧ d.setPixel x y = d.setPixel (x % 64) (y % 32)

/-- R146: DRW toggles exactly the cells under a 1 bit of the sprite, every pixel wrapping, and VF says whether one of
them was set; n = 0 draws nothing and clears VF; a sprite byte above 0xFFF faults and changes nothing (D6). The
coordinates are the values before VF is written (R112, D3). -/
def Obligations.DrawTogglesTheCoveredCells : Prop :=
  ∀ (x y : Reg) (n : Nibble) (s : State),
    Encodes (BitVec.ofNat 16 (0xD000 + x.val * 256 + y.val * 16 + n.toNat)) (.drw x y n) ∧
    (BytesInMemory s n.toNat → ∃ t, exec (.drw x y n) s = .next t ∧ t.lastResult = .ok ∧
      (∀ cx < 64, ∀ cy < 32,
        (Covered s (s.reg x).toNat (s.reg y).toNat n.toNat cx cy → t.fb.pixel cx cy = !s.fb.pixel cx cy) ∧
        (¬ Covered s (s.reg x).toNat (s.reg y).toNat n.toNat cx cy → t.fb.pixel cx cy = s.fb.pixel cx cy)) ∧
      ((∃ cx cy, Covered s (s.reg x).toNat (s.reg y).toNat n.toNat cx cy ∧ s.fb.pixel cx cy = true) →
        t.reg VF = 1) ∧
      ((∀ cx cy, Covered s (s.reg x).toNat (s.reg y).toNat n.toNat cx cy → s.fb.pixel cx cy = false) →
        t.reg VF = 0) ∧
      SameRegsBut [VF] s t ∧ SameMem s t ∧ t = { s with fb := t.fb, v := t.v, lastResult := .ok }) ∧
    (¬ BytesInMemory s n.toNat →
      exec (.drw x y n) s = .next { s with lastResult := .fault (.memOutOfRange s.i n.toNat) })

/-- R147: the same sprite drawn again at the same coordinates, from any later state in which the buffer is as the first
draw left it, restores every cell; the first draw gives VF = 1 exactly when some covered cell was set, the second
exactly when some covered cell was unset, before the first. With x or y = 15 the coordinate is the value latched before
VF is written (R112, the spec's decision D3, log entry 9). -/
def Obligations.SecondDrawRestoresTheBuffer : Prop :=
  ∀ (x y x' y' : Reg) (n : Nibble) (s t u : State), BytesInMemory s n.toNat → exec (.drw x y n) s = .next t →
    u.fb = t.fb → u.i = s.i → u.reg x' = s.reg x → u.reg y' = s.reg y →
    (∀ row < n.toNat, u.mem.read (s.i.toNat + row) = s.mem.read (s.i.toNat + row)) →
    ∃ r, exec (.drw x' y' n) u = .next r ∧ r.lastResult = .ok ∧
      (∀ cx cy : Nat, r.fb.pixel cx cy = s.fb.pixel cx cy) ∧
      (t.reg VF = 1 ↔
        ∃ cx cy, Covered s (s.reg x).toNat (s.reg y).toNat n.toNat cx cy ∧ s.fb.pixel cx cy = true) ∧
      (r.reg VF = 1 ↔
        ∃ cx cy, Covered s (s.reg x).toNat (s.reg y).toNat n.toNat cx cy ∧ s.fb.pixel cx cy = false)

/-! ### Keypad and timers -/

/-- R150, R151: SKP and SKNP skip on the level of the key whose index is the whole value of Vx; above 15 they fault and
change nothing (R156, the spec's decision D8). -/
def Obligations.KeySkipsReadTheKeyLevel : Prop :=
  ∀ (x : Reg) (s : State),
    Encodes (BitVec.ofNat 16 (0xE09E + x.val * 256)) (.skp x) ∧
    Encodes (BitVec.ofNat 16 (0xE0A1 + x.val * 256)) (.sknp x) ∧
    (∀ k : Fin 16, (s.reg x).toNat = k.val →
      (∃ t, exec (.skp x) s = .next t ∧ t.lastResult = .ok ∧
        t.pc = (if s.key[k.val] = true then s.pc + 2 else s.pc) ∧ OnlyPc s t) ∧
      (∃ t, exec (.sknp x) s = .next t ∧ t.lastResult = .ok ∧
        t.pc = (if s.key[k.val] = true then s.pc else s.pc + 2) ∧ OnlyPc s t)) ∧
    (15 < (s.reg x).toNat →
      exec (.skp x) s = .next { s with lastResult := .fault (.keyIndexOutOfRange (s.reg x)) } ∧
      exec (.sknp x) s = .next { s with lastResult := .fault (.keyIndexOutOfRange (s.reg x)) })

/-- R153: LD Vx,K gives the least pressed key and goes on; with no key pressed the whole Step leaves the state as it
was and returns `waiting-for-key` (the least key is the spec's decision D9). -/
def Obligations.WaitForKeyPollsAndRetries : Prop :=
  ∀ (x : Reg) (s : State), Encodes (BitVec.ofNat 16 (0xF00A + x.val * 256)) (.ldVxK x) ∧
    (∀ k : Fin 16, s.key[k.val] = true → (∀ j : Fin 16, j < k → s.key[j.val] = false) →
      ∃ t, exec (.ldVxK x) s = .next t ∧ t.lastResult = .ok ∧ (t.reg x).toNat = k.val ∧ OnlyRegs [x] s t) ∧
    ((∀ k : Fin 16, s.key[k.val] = false) →
      exec (.ldVxK x) s = .next { s with pc := s.pc - 2, lastResult := .waitingForKey } ∧
      ∀ w, NoPause s → s.pc.toNat ≤ 0xFFE → FetchedWord s w → decode w = .ok (.ldVxK x) →
        step s = .next { s with lastResult := .waitingForKey })

/-- R152, R154, R155: LD Vx,DT; LD DT,Vx; LD ST,Vx. The words Fx07, Fx15 and Fx18: log entry 5. -/
def Obligations.TimerInstructionsMoveTheByte : Prop :=
  ∀ (x : Reg) (s : State),
    (Encodes (BitVec.ofNat 16 (0xF007 + x.val * 256)) (.ldVxDt x) ∧
      ∃ t, exec (.ldVxDt x) s = .next t ∧ t.lastResult = .ok ∧ t.reg x = s.dt ∧ OnlyRegs [x] s t) ∧
    (Encodes (BitVec.ofNat 16 (0xF015 + x.val * 256)) (.ldDtVx x) ∧
      ∃ t, exec (.ldDtVx x) s = .next t ∧ t.lastResult = .ok ∧ t.dt = s.reg x ∧
        SameMem s t ∧ t = { s with dt := t.dt, lastResult := .ok }) ∧
    (Encodes (BitVec.ofNat 16 (0xF018 + x.val * 256)) (.ldStVx x) ∧
      ∃ t, exec (.ldStVx x) s = .next t ∧ t.lastResult = .ok ∧ t.st = s.reg x ∧
        SameMem s t ∧ t = { s with st := t.st, lastResult := .ok })

/-! ### Host operations and reset -/

/-- R172, R173: the ticks count down by one, floor at 0, and change nothing else; their compound does both, in either
order (R174). -/
def Obligations.TicksCountDownToZero : Prop :=
  ∀ s : State,
    ((tickDelayTimer s).dt.toNat = s.dt.toNat - 1 ∧ tickDelayTimer s = { s with dt := (tickDelayTimer s).dt }) ∧
    ((tickSoundTimer s).st.toNat = s.st.toNat - 1 ∧ tickSoundTimer s = { s with st := (tickSoundTimer s).st }) ∧
    tick60 s = tickSoundTimer (tickDelayTimer s) ∧ tick60 s = tickDelayTimer (tickSoundTimer s)

/-- R177: SetKey and ClearKey set one key level; an index above 15 changes nothing. -/
def Obligations.KeyEventsSetOneLevel : Prop :=
  ∀ (k : Nat) (s : State),
    (∀ h : k < 16, (∀ j : Fin 16, (setKey k s).key[j.val] = if j.val = k then true else s.key[j.val]) ∧
      (∀ j : Fin 16, (clearKey k s).key[j.val] = if j.val = k then false else s.key[j.val]) ∧
      setKey k s = { s with key := (setKey k s).key } ∧ clearKey k s = { s with key := (clearKey k s).key }) ∧
    (15 < k → setKey k s = s ∧ clearKey k s = s)

/-- R183: SetBreak adds or removes one address and changes nothing else, `LastBreak` included (D17). -/
def Obligations.SetBreakChangesOneAddress : Prop :=
  ∀ (a : Word) (flag : Bool) (s : State), risingAddrs s.brk = true →
    (∀ b : Word, b ∈ (setBreak a flag s).brk ↔ if b = a then flag = true else b ∈ s.brk) ∧
    risingAddrs (setBreak a flag s).brk = true ∧ setBreak a flag s = { s with brk := (setBreak a flag s).brk }

/-- After `Construct` with any font: the font at 0x000, every other byte, register and stack entry 0, no key pressed, the
buffer clear, no breakpoints, PC = 0 (R190; the zeros are the spec's own choice, decision D13). -/
def Obligations.ConstructInstallsTheFont : Prop :=
  ∀ font : Vector Byte 80,
    (∀ a : Fin 80, (State.constructWith font).mem.read a.val = font[a.val]) ∧
    (∀ a : Nat, 80 ≤ a → (State.constructWith font).mem.read a = 0) ∧
    (∀ r : Reg, (State.constructWith font).reg r = 0) ∧
    (∀ k : Fin 16, (State.constructWith font).stack[k.val] = 0) ∧
    (∀ k : Fin 16, (State.constructWith font).key[k.val] = false) ∧
    (∀ x y : Nat, (State.constructWith font).fb.pixel x y = false) ∧
    (State.constructWith font).i = 0 ∧ (State.constructWith font).pc = 0 ∧ (State.constructWith font).sp = 0 ∧
    (State.constructWith font).dt = 0 ∧ (State.constructWith font).st = 0 ∧ (State.constructWith font).brk = [] ∧
    (State.constructWith font).lastBreak = none

/-- `LoadRom` of an image that fits: registers, I, SP, DT, ST zero, buffer clear, image at 0x200, PC = 0x200, no
breakpoints; stack, keys and every byte outside the image as they were. A longer image is refused and changes nothing
(R192, R193, R194; decisions D14, D15). -/
def Obligations.LoadRomResetsAndLoads : Prop :=
  ∀ (image : List Byte) (s : State), s.mem.wf = true →
    (image.length ≤ 3584 → ∃ t, loadRom image s = (.loaded, t) ∧
      (∀ r : Reg, t.reg r = 0) ∧ t.i = 0 ∧ t.sp = 0 ∧ t.dt = 0 ∧ t.st = 0 ∧ t.pc.toNat = 0x200 ∧
      (∀ x y : Nat, t.fb.pixel x y = false) ∧ t.brk = [] ∧ t.lastBreak = none ∧
      (∀ (j : Nat) (h : j < image.length), t.mem.read (0x200 + j) = image[j]) ∧
      SameMemOutside 0x200 image.length s t ∧ t.stack = s.stack ∧ t.key = s.key) ∧
    (3584 < image.length → loadRom image s = (.refused, s))

/-- The launch state, `Construct` and then `LoadRom` of an image that fits: PC = 0x200 and the first fetch takes the
image's first two bytes (R191, R195). The model's reset state is this with the default font and an empty image; that is
the model's choice, log entry 2. -/
def Obligations.LaunchFetchesTheImagesFirstWord : Prop :=
  (loadRom [] State.construct).2 = State.reset ∧
  ∀ (font : Vector Byte 80) (hi lo : Byte) (rest : List Byte) (i : Instr), rest.length ≤ 3582 →
    decode (BitVec.ofNat 16 (hi.toNat * 256 + lo.toNat)) = .ok i →
    ∃ t, loadRom (hi :: lo :: rest) (State.constructWith font) = (.loaded, t) ∧ t.Inv ∧
      step t = exec i { t with pc := 0x202 }

/-- The snapshots change nothing and show every register, every stack entry and every cell FB[x,y]; in the source's
linear layout cell (x, y) is at index (31 − y) · 64 + x (R180, R181). -/
def Obligations.SnapshotsShowTheState : Prop :=
  ∀ s : State,
    perform .getRegisterSnapshot s = .next s ∧ perform .getFrameBufferSnapshot s = .next s ∧
    registerSnapshot s = { v := s.v, i := s.i, pc := s.pc, sp := s.sp, dt := s.dt, st := s.st, stack := s.stack } ∧
    (∀ (x : Fin 64) (y : Fin 32), (frameBufferSnapshot s)[y.val][x.val] = s.fb.pixel x.val y.val) ∧
    (linearSnapshot s).length = 2048 ∧
    ∀ (x y : Nat), x < 64 → y < 32 → (linearSnapshot s)[(31 - y) * 64 + x]? = some (s.fb.pixel x y)

/-- The word `withFetchWord` places is the one the very next Step runs, in every state with canonical memory; a word
that is no instruction is reported. In every state nothing changes but the two bytes at PC, PC itself only where a fetch
at PC would fault, and `LastBreak` only where the breakpoint check would pause. This is about the model's own loading
aid, log entry 4. -/
def Obligations.PlacedWordIsTheNextOneRun : Prop :=
  ∀ (s : State) (w : Nat), s.mem.wf = true → w < 65536 →
    (∀ i, decodeTableWord 16 w = some i → step (s.withFetchWord 16 w) =
      exec i { s.withFetchWord 16 w with pc := (s.withFetchWord 16 w).pc + 2 }) ∧
    (decodeTableWord 16 w = none → step (s.withFetchWord 16 w) =
      .next { s.withFetchWord 16 w with
        pc := (s.withFetchWord 16 w).pc + 2
        lastResult := .invalidOpcode (s.withFetchWord 16 w).pc (BitVec.ofNat 16 w) }) ∧
    SameMemOutside (s.withFetchWord 16 w).pc.toNat 2 s (s.withFetchWord 16 w) ∧
    s.withFetchWord 16 w = { s with
      mem := (s.withFetchWord 16 w).mem
      pc := if s.pc.toNat ≤ 0xFFE then s.pc else 0x200
      lastBreak := (s.withFetchWord 16 w).lastBreak } ∧
    (NoPause { s with pc := (s.withFetchWord 16 w).pc } → (s.withFetchWord 16 w).lastBreak = s.lastBreak) ∧
    (¬ NoPause { s with pc := (s.withFetchWord 16 w).pc } →
      (s.withFetchWord 16 w).lastBreak = some (s.withFetchWord 16 w).pc)
end

