-- ==== Sys2Proof/Laws/Decode.lean ====
section
/-! SUPPORT. Words as numbers, the fields of an encoded word, and when a pattern accepts a word. -/

namespace Sys2Proof

theorem toNat_append_add {m n : Nat} (a : BitVec m) (b : BitVec n) : (a ++ b).toNat = a.toNat * 2 ^ n + b.toNat := by
  rw [BitVec.toNat_append, ← Nat.shiftLeft_add_eq_or_of_lt b.isLt, Nat.shiftLeft_eq]

@[simp] theorem toNat_regNibble (r : Reg) : (regNibble r).toNat = r.val := rfl

/-! ### The formats as numbers (30_encoding.md R63) -/

theorem toNat_formatA (n1 : Nibble) (nnn : Addr12) : (formatA n1 nnn).toNat = n1.toNat * 4096 + nnn.toNat :=
  toNat_append_add n1 nnn

theorem toNat_formatXK (n1 : Nibble) (x : Reg) (kk : Byte) :
    (formatXK n1 x kk).toNat = n1.toNat * 4096 + x.val * 256 + kk.toNat := by
  rw [formatXK, toNat_append_add, toNat_append_add, toNat_regNibble]; omega

theorem toNat_formatX (n1 : Nibble) (x : Reg) (low : Byte) :
    (formatX n1 x low).toNat = n1.toNat * 4096 + x.val * 256 + low.toNat := toNat_formatXK n1 x low

theorem toNat_formatXY (n1 : Nibble) (x y : Reg) (n4 : Nibble) :
    (formatXY n1 x y n4).toNat = n1.toNat * 4096 + x.val * 256 + y.val * 16 + n4.toNat := by
  rw [formatXY, toNat_append_add, toNat_append_add, toNat_append_add, toNat_regNibble, toNat_regNibble]; omega

/-! ### The nibbles of a word (R61) -/

theorem Opcode.toNat_n1 (w : Word) : (ofWord w).n1.toNat = w.toNat / 4096 := by
  have := w.isLt
  simp only [ofWord, BitVec.extractLsb'_toNat, Nat.shiftRight_eq_div_pow]; omega

theorem Opcode.toNat_n2 (w : Word) : (ofWord w).n2.toNat = w.toNat / 256 % 16 := by
  simp only [ofWord, BitVec.extractLsb'_toNat, Nat.shiftRight_eq_div_pow]

theorem Opcode.toNat_n3 (w : Word) : (ofWord w).n3.toNat = w.toNat / 16 % 16 := by
  simp only [ofWord, BitVec.extractLsb'_toNat, Nat.shiftRight_eq_div_pow]

theorem Opcode.toNat_n4 (w : Word) : (ofWord w).n4.toNat = w.toNat % 16 := by
  simp only [ofWord, BitVec.extractLsb'_toNat, Nat.shiftRight_zero]

theorem Opcode.val_x (w : Word) : (ofWord w).x.val = w.toNat / 256 % 16 := toNat_n2 w

theorem Opcode.val_y (w : Word) : (ofWord w).y.val = w.toNat / 16 % 16 := toNat_n3 w

theorem Opcode.toNat_kk (w : Word) : (ofWord w).kk.toNat = w.toNat % 256 := by
  rw [kk, toNat_append_add, toNat_n3, toNat_n4]; omega

theorem Opcode.toNat_nnn (w : Word) : (ofWord w).nnn.toNat = w.toNat % 4096 := by
  rw [nnn, toNat_append_add, toNat_append_add, toNat_n2, toNat_n3, toNat_n4]; omega

/-- A word is the join of its nibbles (R61). -/
theorem Opcode.toWord_ofWord (w : Word) : (ofWord w).toWord = w := by
  apply BitVec.eq_of_toNat_eq
  have := w.isLt
  rw [toWord, toNat_append_add, toNat_append_add, toNat_append_add, toNat_n1, toNat_n2, toNat_n3, toNat_n4]; omega

/-! ### Bytes and words (20_memory.md R42) -/

theorem toNat_wordOfBytes (hi lo : Byte) : (wordOfBytes hi lo).toNat = hi.toNat * 256 + lo.toNat :=
  toNat_append_add hi lo

@[simp] theorem wordOfBytes_bytesOfWord (w : Word) : wordOfBytes (bytesOfWord w).1 (bytesOfWord w).2 = w := by
  apply BitVec.eq_of_toNat_eq
  have := w.isLt
  simp only [toNat_wordOfBytes, bytesOfWord, BitVec.extractLsb'_toNat, Nat.shiftRight_eq_div_pow]; omega

/-! ### The fields of an encoded word (R62, R63) -/

section Fields

variable (n1 n4 : Nibble) (x y : Reg) (kk : Byte) (nnn : Addr12)

@[simp] theorem Opcode.n1_formatA : (ofWord (formatA n1 nnn)).n1 = n1 := by
  apply BitVec.eq_of_toNat_eq; rw [toNat_n1, toNat_formatA]; omega

@[simp] theorem Opcode.nnn_formatA : (ofWord (formatA n1 nnn)).nnn = nnn := by
  apply BitVec.eq_of_toNat_eq; rw [toNat_nnn, toNat_formatA]; omega

@[simp] theorem Opcode.n1_formatXK : (ofWord (formatXK n1 x kk)).n1 = n1 := by
  apply BitVec.eq_of_toNat_eq; rw [toNat_n1, toNat_formatXK]; omega

@[simp] theorem Opcode.x_formatXK : (ofWord (formatXK n1 x kk)).x = x := by
  apply Fin.ext; rw [val_x, toNat_formatXK]; omega

@[simp] theorem Opcode.kk_formatXK : (ofWord (formatXK n1 x kk)).kk = kk := by
  apply BitVec.eq_of_toNat_eq; rw [toNat_kk, toNat_formatXK]; omega

@[simp] theorem Opcode.n1_formatXY : (ofWord (formatXY n1 x y n4)).n1 = n1 := by
  apply BitVec.eq_of_toNat_eq; rw [toNat_n1, toNat_formatXY]; omega

@[simp] theorem Opcode.x_formatXY : (ofWord (formatXY n1 x y n4)).x = x := by
  apply Fin.ext; rw [val_x, toNat_formatXY]; omega

@[simp] theorem Opcode.y_formatXY : (ofWord (formatXY n1 x y n4)).y = y := by
  apply Fin.ext; rw [val_y, toNat_formatXY]; omega

@[simp] theorem Opcode.n4_formatXY : (ofWord (formatXY n1 x y n4)).n4 = n4 := by
  apply BitVec.eq_of_toNat_eq; rw [toNat_n4, toNat_formatXY]; omega

@[simp] theorem Opcode.n_formatXY : (ofWord (formatXY n1 x y n4)).n = n4 := n4_formatXY n1 n4 x y

@[simp] theorem Opcode.n1_formatX : (ofWord (formatX n1 x kk)).n1 = n1 := n1_formatXK n1 x kk

@[simp] theorem Opcode.x_formatX : (ofWord (formatX n1 x kk)).x = x := x_formatXK n1 x kk

@[simp] theorem Opcode.n3_formatX : (ofWord (formatX n1 x kk)).n3 = kk.extractLsb' 4 4 := by
  apply BitVec.eq_of_toNat_eq
  rw [toNat_n3, toNat_formatX, BitVec.extractLsb'_toNat, Nat.shiftRight_eq_div_pow]; omega

@[simp] theorem Opcode.n4_formatX : (ofWord (formatX n1 x kk)).n4 = kk.extractLsb' 0 4 := by
  apply BitVec.eq_of_toNat_eq
  rw [toNat_n4, toNat_formatX, BitVec.extractLsb'_toNat, Nat.shiftRight_zero]; omega

end Fields

end Sys2Proof
end

