-- ==== Sys2Proof/Laws/Display.lean ====
section
/-! SUPPORT. The frame buffer: what one toggle does to each cell, and what drawing a whole sprite does (44_display.md
R142, R146). -/

namespace Sys2Proof
namespace Machine

@[simp] theorem FrameBuffer.pixel_blank (x y : Nat) : FrameBuffer.blank.pixel x y = false := by
  simp [FrameBuffer.blank, FrameBuffer.pixel]

/-- What a toggle does: the cell of the wrapped coordinates changes, every other cell stays (R142). -/
theorem FrameBuffer.pixel_toggle (fb : FrameBuffer) (x y cx cy : Nat) :
    (fb.toggle x y).pixel cx cy =
      if cx % 64 = x % 64 ∧ cy % 32 = y % 32 then !fb.pixel cx cy else fb.pixel cx cy := by
  simp only [FrameBuffer.pixel, FrameBuffer.toggle, Vector.getElem_set]
  by_cases hy : y % 32 = cy % 32
  · by_cases hx : x % 64 = cx % 64
    · simp [hx, hy]
    · simp [hx, hy, Ne.symm hx]
  · simp [hy, Ne.symm hy]

/-- Two pairs of coordinates wrap to one cell. -/
abbrev SameCell (p q : Nat × Nat) : Prop := p.1 % 64 = q.1 % 64 ∧ p.2 % 32 = q.2 % 32

/-- The pixels one sprite row toggles, from the list of columns. -/
def rowPixels (x y : Nat) (row : Byte) (cols : List Nat) : List (Nat × Nat) :=
  (cols.filter fun col => row.getLsbD (7 - col)).map fun col => (x + col, y)

/-- The pixels a sprite toggles. -/
def spritePixels (x y : Nat) : List Byte → List (Nat × Nat)
  | [] => []
  | row :: rest => rowPixels x y row (List.range 8) ++ spritePixels x (y + 1) rest

theorem Drawn.drawCols_eq_foldl (d : Drawn) (x y : Nat) (row : Byte) (cols : List Nat) :
    d.drawCols x y row cols = (rowPixels x y row cols).foldl (fun d p => d.setPixel p.1 p.2) d := by
  induction cols generalizing d with
  | nil => rfl
  | cons col rest ih =>
    rw [Drawn.drawCols, ih]
    by_cases h : row.getLsbD (7 - col) <;> simp [rowPixels, h]

theorem Drawn.drawRows_eq_foldl (d : Drawn) (x y : Nat) (rows : List Byte) :
    d.drawRows x y rows = (spritePixels x y rows).foldl (fun d p => d.setPixel p.1 p.2) d := by
  induction rows generalizing d y with
  | nil => rfl
  | cons row rest ih => rw [Drawn.drawRows, ih, Drawn.drawCols_eq_foldl, spritePixels, List.foldl_append]

/-- Toggling a list of pixels on distinct cells: a cell changes exactly when a pixel of the list wraps to it, and the
collision says whether one of them had been set. -/
theorem Drawn.foldl_setPixel (ps : List (Nat × Nat)) (hd : ps.Pairwise fun p q => ¬ SameCell p q) (d : Drawn) :
    (∀ c, (ps.foldl (fun d p => d.setPixel p.1 p.2) d).fb.pixel c.1 c.2 =
      (d.fb.pixel c.1 c.2 ^^ decide (∃ p ∈ ps, SameCell c p))) ∧
    (ps.foldl (fun d p => d.setPixel p.1 p.2) d).collided =
      (d.collided || decide (∃ p ∈ ps, d.fb.pixel p.1 p.2 = true)) := by
  induction ps generalizing d with
  | nil => simp
  | cons p rest ih =>
    obtain ⟨hp, hrest⟩ := List.pairwise_cons.1 hd
    obtain ⟨ih1, ih2⟩ := ih hrest (d.setPixel p.1 p.2)
    have hfb : ∀ c : Nat × Nat, (d.setPixel p.1 p.2).fb.pixel c.1 c.2 =
        if SameCell c p then !d.fb.pixel c.1 c.2 else d.fb.pixel c.1 c.2 :=
      fun c => FrameBuffer.pixel_toggle d.fb p.1 p.2 c.1 c.2
    have hcol : (d.setPixel p.1 p.2).collided = (d.collided || d.fb.pixel p.1 p.2) := rfl
    constructor
    · intro c
      rw [List.foldl_cons, ih1, hfb]
      by_cases hc : SameCell c p
      · have : ¬ ∃ q ∈ rest, SameCell c q := by
          rintro ⟨q, hq, hcq⟩
          exact hp q hq ⟨hc.1.symm.trans hcq.1, hc.2.symm.trans hcq.2⟩
        simp [hc, this]
      · simp [hc]
    · rw [List.foldl_cons, ih2, hcol, Bool.eq_iff_iff]
      have : (∃ q ∈ rest, (d.setPixel p.1 p.2).fb.pixel q.1 q.2 = true) ↔ ∃ q ∈ rest, d.fb.pixel q.1 q.2 = true := by
        refine exists_congr fun q => and_congr_right fun hq => ?_
        rw [hfb, if_neg fun h => hp q hq ⟨h.1.symm, h.2.symm⟩]
      simp only [Bool.or_eq_true, decide_eq_true_eq, List.exists_mem_cons_iff, this, or_assoc]

theorem mem_rowPixels {x y : Nat} {row : Byte} {p : Nat × Nat} :
    p ∈ rowPixels x y row (List.range 8) ↔ ∃ col < 8, row.getLsbD (7 - col) = true ∧ p = (x + col, y) := by
  simp only [rowPixels, List.mem_map, List.mem_filter, List.mem_range, and_assoc, eq_comm (a := p)]

theorem mem_spritePixels {x y : Nat} {rows : List Byte} {p : Nat × Nat} :
    p ∈ spritePixels x y rows ↔
      ∃ (k : Nat) (hk : k < rows.length), ∃ col < 8, rows[k].getLsbD (7 - col) = true ∧ p = (x + col, y + k) := by
  induction rows generalizing y with
  | nil => simp [spritePixels]
  | cons row rest ih =>
    simp only [spritePixels, List.mem_append, mem_rowPixels, ih]
    constructor
    · rintro (⟨col, hc, hb, rfl⟩ | ⟨k, hk, col, hc, hb, rfl⟩)
      · exact ⟨0, by simp, col, hc, hb, rfl⟩
      · exact ⟨k + 1, by simpa using hk, col, hc, by simpa using hb, by simp; omega⟩
    · rintro ⟨k, hk, col, hc, hb, rfl⟩
      cases k with
      | zero => exact .inl ⟨col, hc, by simpa using hb, rfl⟩
      | succ k => exact .inr ⟨k, by simpa using hk, col, hc, by simpa using hb, by simp; omega⟩

/-- Within one sprite no two pixels fall on one cell: 8 columns are distinct modulo 64, at most 32 rows modulo 32
(R146). -/
theorem spritePixels_distinct (x y : Nat) (rows : List Byte) (h : rows.length ≤ 32) :
    (spritePixels x y rows).Pairwise fun p q => ¬ SameCell p q := by
  induction rows generalizing y with
  | nil => exact List.Pairwise.nil
  | cons row rest ih =>
    rw [List.length_cons] at h
    refine List.pairwise_append.2 ⟨?_, ih _ (by omega), ?_⟩
    · refine List.pairwise_map.2 (((List.pairwise_lt_range (n := 8)).imp_of_mem ?_).filter _)
      intro c c' hc hc' hlt hs
      have h1 := List.mem_range.1 hc
      have h2 := List.mem_range.1 hc'
      have := hs.1
      simp only at this
      omega
    · intro p hp q hq hs
      obtain ⟨col, _, _, rfl⟩ := mem_rowPixels.1 hp
      obtain ⟨k, hk, _, _, _, rfl⟩ := mem_spritePixels.1 hq
      have := hs.2
      simp only at this
      omega

/-- WHAT DRAWING A SPRITE DOES (R146): a cell is toggled exactly when it lies under a 1 bit, and the collision says
whether some cell under a 1 bit had been set. -/
theorem FrameBuffer.drawSprite_spec (fb : FrameBuffer) (x y : Nat) (rows : List Byte) (h : rows.length ≤ 32) :
    (∀ cx cy, (fb.drawSprite x y rows).fb.pixel cx cy =
      (fb.pixel cx cy ^^ decide (∃ p ∈ spritePixels x y rows, SameCell (cx, cy) p))) ∧
    (fb.drawSprite x y rows).collided = decide (∃ p ∈ spritePixels x y rows, fb.pixel p.1 p.2 = true) := by
  have := Drawn.foldl_setPixel _ (spritePixels_distinct x y rows h) { fb := fb, collided := false }
  rw [FrameBuffer.drawSprite, Drawn.drawRows_eq_foldl]
  exact ⟨fun cx cy => this.1 (cx, cy), by simpa using this.2⟩

end Machine
end Sys2Proof
end

