-- ==== Sys2Proof/Laws/Memory.lean ====
section
/-! SUPPORT. Main memory: a read after a write, and that every operation keeps the canonical form (20_memory.md R50,
R54). -/

namespace Sys2Proof
namespace Machine
namespace Memory

variable {m : Memory} {lo a b : Nat} {v : Byte}

@[simp] theorem read_nil : read [] a = unlisted a := rfl

@[simp] theorem wf_nil : wf [] = true := rfl

theorem wfFrom_cons {rest : Memory} : wfFrom lo ((a, v) :: rest) = true ↔
    lo ≤ a ∧ a < Config.memSize ∧ v ≠ unlisted a ∧ wfFrom (a + 1) rest = true := by
  simp [wfFrom, and_assoc]

theorem wfFrom_weaken {lo' : Nat} (h : wfFrom lo m = true) (hlo : lo' ≤ lo) : wfFrom lo' m = true := by
  cases m with
  | nil => rfl
  | cons c rest => exact wfFrom_cons.2 ⟨hlo.trans (wfFrom_cons.1 h).1, (wfFrom_cons.1 h).2⟩

/-- Below the first listed address everything reads as unlisted. -/
theorem read_below (h : wfFrom lo m = true) (ha : a < lo) : read m a = unlisted a := by
  induction m generalizing lo with
  | nil => rfl
  | cons c rest ih =>
    obtain ⟨h1, _, _, h4⟩ := wfFrom_cons.1 h
    rw [read, if_neg (by omega)]
    exact ih h4 (by omega)

theorem read_erase (h : wfFrom lo m = true) : read (erase m a) b = if b = a then unlisted a else read m b := by
  induction m generalizing lo with
  | nil => simp only [erase, read_nil]; split <;> simp [*]
  | cons c rest ih =>
    obtain ⟨c, w⟩ := c
    obtain ⟨_, _, _, h4⟩ := wfFrom_cons.1 h
    rw [erase]
    split
    · subst a
      by_cases hb : b = c
      · subst hb; rw [if_pos rfl]; exact read_below h4 (by omega)
      · simp [read, hb]
    · rename_i hac
      by_cases hb : b = c
      · subst hb; simp [read, Ne.symm hac]
      · simpa [read, hb] using ih h4

theorem read_insert : read (insert m a v) b = if b = a then v else read m b := by
  induction m with
  | nil => simp [insert, read]
  | cons c rest ih =>
    obtain ⟨c, w⟩ := c
    rw [insert]
    split
    · simp [read]
    split
    · subst a; by_cases hb : b = c <;> simp [read, hb]
    · rename_i hac
      by_cases hb : b = c
      · subst hb; simp [read, Ne.symm hac]
      · simpa [read, hb] using ih

/-- What a byte write does: the byte written reads back, every other byte reads as before (R50, R54). -/
theorem read_write (h : m.wf = true) : read (write m a v) b = if b = a then v else read m b := by
  rw [write]
  split
  · rename_i hv; rw [read_erase h, hv]
  · exact read_insert

theorem wfFrom_erase (h : wfFrom lo m = true) : wfFrom lo (erase m a) = true := by
  induction m generalizing lo with
  | nil => rfl
  | cons c rest ih =>
    obtain ⟨h1, h2, h3, h4⟩ := wfFrom_cons.1 h
    rw [erase]
    split
    · exact wfFrom_weaken h4 (by omega)
    · exact wfFrom_cons.2 ⟨h1, h2, h3, ih h4⟩

theorem wfFrom_insert (h : wfFrom lo m = true) (hlo : lo ≤ a) (ha : a < Config.memSize) (hv : v ≠ unlisted a) :
    wfFrom lo (insert m a v) = true := by
  induction m generalizing lo with
  | nil => exact wfFrom_cons.2 ⟨hlo, ha, hv, rfl⟩
  | cons c rest ih =>
    obtain ⟨c, w⟩ := c
    obtain ⟨h1, h2, h3, h4⟩ := wfFrom_cons.1 h
    rw [insert]
    split
    · exact wfFrom_cons.2 ⟨hlo, ha, hv, wfFrom_cons.2 ⟨by omega, h2, h3, h4⟩⟩
    split
    · subst a; exact wfFrom_cons.2 ⟨hlo, ha, hv, h4⟩
    · exact wfFrom_cons.2 ⟨h1, h2, h3, ih h4 (by omega)⟩

/-- A byte write inside memory keeps the canonical form. -/
theorem wf_write (h : m.wf = true) (ha : a < Config.memSize) : (write m a v).wf = true := by
  rw [write]
  split
  · exact wfFrom_erase h
  · rename_i hv; exact wfFrom_insert h (Nat.zero_le a) ha hv

theorem wf_writeBytes {bs : List Byte} (h : m.wf = true) (ha : a + bs.length ≤ Config.memSize) :
    (writeBytes m a bs).wf = true := by
  induction bs generalizing m a with
  | nil => exact h
  | cons v rest ih =>
    rw [List.length_cons] at ha
    exact ih (wf_write h (by omega)) (by omega)

/-- What a run of byte writes does: the k-th byte reads back at its address, and every byte outside the run reads as
before (R43, R50). -/
theorem read_writeBytes {bs : List Byte} (h : m.wf = true) (ha : a + bs.length ≤ Config.memSize) :
    read (writeBytes m a bs) b = if a ≤ b then bs.getD (b - a) (read m b) else read m b := by
  induction bs generalizing m a with
  | nil => simp [writeBytes]
  | cons v rest ih =>
    rw [List.length_cons] at ha
    rw [writeBytes, ih (wf_write h (by omega)) (by omega), read_write h]
    by_cases h1 : a + 1 ≤ b
    · have h2 : b - a = (b - (a + 1)) + 1 := by omega
      rw [if_pos h1, if_neg (show b ≠ a by omega), if_pos (show a ≤ b by omega), h2, List.getD_cons_succ]
    · rw [if_neg h1]
      by_cases h2 : b = a
      · subst h2; simp
      · rw [if_neg h2, if_neg (show ¬ a ≤ b by omega)]

theorem read_writeBytes_of_outside {bs : List Byte} (h : m.wf = true) (ha : a + bs.length ≤ Config.memSize)
    (hb : b < a ∨ a + bs.length ≤ b) : read (writeBytes m a bs) b = read m b := by
  rw [read_writeBytes h ha]
  split
  · exact List.getD_eq_default _ _ (by omega)
  · rfl

theorem read_writeBytes_of_inside {bs : List Byte} {k : Nat} (h : m.wf = true) (ha : a + bs.length ≤ Config.memSize)
    (hk : k < bs.length) : read (writeBytes m a bs) (a + k) = bs[k] := by
  rw [read_writeBytes h ha, if_pos (by omega), Nat.add_sub_cancel_left, List.getD_eq_getElem _ _ hk]

@[simp] theorem length_readBytes {k : Nat} : (readBytes m a k).length = k := by
  induction k generalizing a with
  | zero => rfl
  | succ k ih => simp [readBytes, ih]

/-- The j-th byte of a run of reads is the byte at its address (R43). -/
theorem getElem_readBytes {k j : Nat} (hj : j < (readBytes m a k).length) : (readBytes m a k)[j] = read m (a + j) := by
  induction k generalizing a j with
  | zero => simp at hj
  | succ k ih =>
    cases j with
    | zero => rfl
    | succ j =>
      simp only [readBytes, List.getElem_cons_succ]
      rw [ih]
      congr 1
      omega

end Memory
end Machine
end Sys2Proof
end

