-- ==== Sys2Proof/Laws/State.lean ====
section
/-! SUPPORT. What each named update of the state does to each field, and to the registers. -/

namespace Sys2Proof
namespace Machine
namespace State

variable (s : State) (x r : Reg) (b f : Byte) (c : Bool)

@[simp] theorem i_setReg : (s.setReg x b).i = s.i := rfl
@[simp] theorem pc_setReg : (s.setReg x b).pc = s.pc := rfl
@[simp] theorem sp_setReg : (s.setReg x b).sp = s.sp := rfl
@[simp] theorem stack_setReg : (s.setReg x b).stack = s.stack := rfl
@[simp] theorem dt_setReg : (s.setReg x b).dt = s.dt := rfl
@[simp] theorem st_setReg : (s.setReg x b).st = s.st := rfl
@[simp] theorem mem_setReg : (s.setReg x b).mem = s.mem := rfl
@[simp] theorem key_setReg : (s.setReg x b).key = s.key := rfl
@[simp] theorem fb_setReg : (s.setReg x b).fb = s.fb := rfl
@[simp] theorem brk_setReg : (s.setReg x b).brk = s.brk := rfl
@[simp] theorem lastBreak_setReg : (s.setReg x b).lastBreak = s.lastBreak := rfl
@[simp] theorem draws_setReg : (s.setReg x b).draws = s.draws := rfl
@[simp] theorem lastResult_setReg : (s.setReg x b).lastResult = s.lastResult := rfl

@[simp] theorem i_setFlagAndReg : (s.setFlagAndReg x f b).i = s.i := rfl
@[simp] theorem pc_setFlagAndReg : (s.setFlagAndReg x f b).pc = s.pc := rfl
@[simp] theorem sp_setFlagAndReg : (s.setFlagAndReg x f b).sp = s.sp := rfl
@[simp] theorem stack_setFlagAndReg : (s.setFlagAndReg x f b).stack = s.stack := rfl
@[simp] theorem dt_setFlagAndReg : (s.setFlagAndReg x f b).dt = s.dt := rfl
@[simp] theorem st_setFlagAndReg : (s.setFlagAndReg x f b).st = s.st := rfl
@[simp] theorem mem_setFlagAndReg : (s.setFlagAndReg x f b).mem = s.mem := rfl
@[simp] theorem key_setFlagAndReg : (s.setFlagAndReg x f b).key = s.key := rfl
@[simp] theorem fb_setFlagAndReg : (s.setFlagAndReg x f b).fb = s.fb := rfl
@[simp] theorem brk_setFlagAndReg : (s.setFlagAndReg x f b).brk = s.brk := rfl
@[simp] theorem lastBreak_setFlagAndReg : (s.setFlagAndReg x f b).lastBreak = s.lastBreak := rfl
@[simp] theorem draws_setFlagAndReg : (s.setFlagAndReg x f b).draws = s.draws := rfl
@[simp] theorem lastResult_setFlagAndReg : (s.setFlagAndReg x f b).lastResult = s.lastResult := rfl

@[simp] theorem v_skipIf : (s.skipIf c).v = s.v := by cases c <;> rfl
@[simp] theorem i_skipIf : (s.skipIf c).i = s.i := by cases c <;> rfl
@[simp] theorem sp_skipIf : (s.skipIf c).sp = s.sp := by cases c <;> rfl
@[simp] theorem stack_skipIf : (s.skipIf c).stack = s.stack := by cases c <;> rfl
@[simp] theorem dt_skipIf : (s.skipIf c).dt = s.dt := by cases c <;> rfl
@[simp] theorem st_skipIf : (s.skipIf c).st = s.st := by cases c <;> rfl
@[simp] theorem mem_skipIf : (s.skipIf c).mem = s.mem := by cases c <;> rfl
@[simp] theorem key_skipIf : (s.skipIf c).key = s.key := by cases c <;> rfl
@[simp] theorem fb_skipIf : (s.skipIf c).fb = s.fb := by cases c <;> rfl
@[simp] theorem brk_skipIf : (s.skipIf c).brk = s.brk := by cases c <;> rfl
@[simp] theorem lastBreak_skipIf : (s.skipIf c).lastBreak = s.lastBreak := by cases c <;> rfl
@[simp] theorem draws_skipIf : (s.skipIf c).draws = s.draws := by cases c <;> rfl
@[simp] theorem lastResult_skipIf : (s.skipIf c).lastResult = s.lastResult := by cases c <;> rfl

@[simp] theorem v_advance : s.advance.v = s.v := rfl
@[simp] theorem i_advance : s.advance.i = s.i := rfl
@[simp] theorem sp_advance : s.advance.sp = s.sp := rfl
@[simp] theorem stack_advance : s.advance.stack = s.stack := rfl
@[simp] theorem dt_advance : s.advance.dt = s.dt := rfl
@[simp] theorem st_advance : s.advance.st = s.st := rfl
@[simp] theorem mem_advance : s.advance.mem = s.mem := rfl
@[simp] theorem key_advance : s.advance.key = s.key := rfl
@[simp] theorem fb_advance : s.advance.fb = s.fb := rfl
@[simp] theorem brk_advance : s.advance.brk = s.brk := rfl
@[simp] theorem lastBreak_advance : s.advance.lastBreak = s.lastBreak := rfl
@[simp] theorem draws_advance : s.advance.draws = s.draws := rfl
@[simp] theorem lastResult_advance : s.advance.lastResult = s.lastResult := rfl
@[simp] theorem pc_advance : s.advance.pc = s.pc + 2 := rfl
@[simp] theorem reg_advance : s.advance.reg r = s.reg r := rfl
@[simp] theorem keyDown_advance (k : Fin 16) : s.advance.keyDown k = s.keyDown k := rfl

theorem pc_skipIf : (s.skipIf c).pc = if c then s.pc + 2 else s.pc := by cases c <;> rfl
@[simp] theorem reg_skipIf : (s.skipIf c).reg r = s.reg r := by cases c <;> rfl

/-- What a register write does to the registers (10_state.md R11). -/
theorem reg_setReg : (s.setReg x b).reg r = if r = x then b else s.reg r := by
  simp only [reg, setReg, Vector.getElem_set, Fin.ext_iff, eq_comm]

@[simp] theorem reg_setReg_self : (s.setReg x b).reg x = b := by simp [reg_setReg]

theorem reg_setReg_of_ne (h : r ≠ x) : (s.setReg x b).reg r = s.reg r := by simp [reg_setReg, h]

/-- What writing a flag and a result does to the registers: the result is written last (42_alu.md R112). -/
theorem reg_setFlagAndReg :
    (s.setFlagAndReg x f b).reg r = if r = x then b else if r = VF then f else s.reg r := by
  simp only [setFlagAndReg, reg_setReg]

/-- Two states with the same registers and otherwise equal are equal. -/
theorem v_ext {s t : State} (h : ∀ r, t.reg r = s.reg r) : t.v = s.v := by
  apply Vector.ext
  intro k hk
  exact h ⟨k, hk⟩

end State
end Machine
end Sys2Proof
end

