-- ==== Sys2Proof/Laws/Ops.lean ====
section
/-! SUPPORT. One lemma per shared operation: what it can answer and the value it computes. -/

namespace Sys2Proof
namespace Machine

/-! ### Operand forms and flags as numbers -/

@[simp] theorem toNat_addrOf (nnn : Addr12) : (addrOf nnn).toNat = nnn.toNat := by
  have := nnn.isLt
  simp only [addrOf, BitVec.toNat_setWidth]; omega

@[simp] theorem toNat_glyphAddr (b : Byte) : (glyphAddr b).toNat = b.toNat * 5 := by
  have := b.isLt
  simp only [glyphAddr, BitVec.toNat_ofNat]; omega

@[simp] theorem length_digits (b : Byte) : (digits b).length = 3 := rfl

theorem toNat_flagByte (c : Bool) : (flagByte c).toNat = if c then 1 else 0 := by cases c <;> rfl

theorem toNat_shrFlag (a : Byte) : (shrFlag a).toNat = a.toNat % 2 := by
  simp only [shrFlag, BitVec.toNat_and]; exact Nat.and_one_is_mod _

theorem toNat_shlFlag (a : Byte) : (shlFlag a).toNat = a.toNat / 128 := by
  revert a; decide

theorem inRange_iff {base : Word} {k : Nat} : inRange base k = true ↔ k = 0 ∨ base.toNat + k - 1 ≤ 0xFFF := by
  simp [inRange]

theorem inRange_regCount {base : Word} {x : Reg} :
    inRange base (regCount x) = true ↔ base.toNat + x.val ≤ 0xFFF := by
  rw [inRange_iff, regCount]; omega

/-! ### Registers and keys -/

theorem length_firstRegs (s : State) {k : Nat} (hk : k ≤ 16) : (s.firstRegs k).length = k := by
  simp [State.firstRegs, hk]

theorem getElem_firstRegs (s : State) {k j : Nat} (hj : j < (s.firstRegs k).length) :
    (s.firstRegs k)[j] = s.reg ⟨j, by simp [State.firstRegs] at hj; omega⟩ := by
  simp [State.firstRegs, State.reg]

/-- The least pressed key is pressed, and no lesser one is (45_keypad_timers.md R153). -/
theorem State.leastKey_eq_some {s : State} {k : Fin 16} :
    s.leastKey = some k ↔ s.keyDown k = true ∧ ∀ j, j < k → s.keyDown j = false := by
  rw [leastKey, List.find?_eq_some_iff_getElem]
  simp only [List.length_finRange, List.getElem_finRange]
  constructor
  · rintro ⟨h, i, hi, hik, hj⟩
    subst hik
    exact ⟨h, fun j hlt => by simpa using hj j.val hlt⟩
  · rintro ⟨h, hj⟩
    exact ⟨h, k.val, k.isLt, rfl, fun j hlt => by simpa using hj ⟨j, by omega⟩ hlt⟩

theorem State.leastKey_eq_none {s : State} : s.leastKey = none ↔ ∀ k, s.keyDown k = false := by
  simp [leastKey]

/-! ### The ways a Step ends -/

/-- `done` answers the state with the result `ok` (40_step_cycle.md R86). -/
theorem done_eq (s : State) : done s = .next { s with lastResult := .ok } := rfl

/-- Taking a fault answers the state with the fault reported and nothing else changed (60_exceptions.md R163). -/
theorem raise_eq (kind : FaultKind) (s : State) : raise kind s = .next { s with lastResult := .fault kind } := rfl

/-- The range check lets the instruction run, or faults with nothing changed (20_memory.md R46). -/
theorem checkRange_eq (k : Nat) (s : State) (body : Result) :
    checkRange k s body =
      if k = 0 ∨ s.i.toNat + k - 1 ≤ 0xFFF then body
      else .next { s with lastResult := .fault (.memOutOfRange s.i k) } := by
  rw [checkRange, raise_eq]
  exact if_congr inRange_iff rfl rfl

/-- The key skips skip on the level of the key Vx names, or fault with nothing changed (45_keypad_timers.md R156). -/
theorem skipOnKey_of_lt {x : Reg} {s : State} {wanted : Bool} (h : (s.reg x).toNat < 16) :
    skipOnKey x s wanted =
      .next { s.skipIf (s.keyDown ⟨(s.reg x).toNat, h⟩ == wanted) with lastResult := .ok } := by
  rw [skipOnKey, dif_pos h, done_eq]

theorem skipOnKey_of_ge {x : Reg} {s : State} {wanted : Bool} (h : 15 < (s.reg x).toNat) :
    skipOnKey x s wanted = .next { s with lastResult := .fault (.keyIndexOutOfRange (s.reg x)) } := by
  rw [skipOnKey, dif_neg (by omega), raise_eq]

end Machine
end Sys2Proof
end

