-- ==== Sys2Proof/Laws/Exec.lean ====
section
/-! SUPPORT. What an instruction can do, said once: the results it can return, and what no instruction writes. -/

namespace Sys2Proof
namespace Machine

/-- The three ways an instruction answers a next state: it executes, LD Vx,K waits with PC set back and nothing else
changed, or it takes a fault with nothing changed (40_step_cycle.md R85, R86). -/
theorem exec_result {i : Instr} {s t : State} (h : exec i s = .next t) :
    t.lastResult = .ok ∨
    (∃ x, i = .ldVxK x ∧ (∀ k, s.keyDown k = false) ∧ t = { s with pc := s.pc - 2, lastResult := .waitingForKey }) ∨
    ∃ kind, t = { s with lastResult := .fault kind } := by
  cases i with
  | ret =>
    rw [exec, execRet] at h
    split at h
    · injection h with h; subst h; exact .inr (.inr ⟨_, rfl⟩)
    · split at h
      · injection h with h; subst h; exact .inl rfl
      · cases h
  | call nnn =>
    rw [exec, execCall] at h
    split at h
    · injection h with h; subst h; exact .inl rfl
    · injection h with h; subst h; exact .inr (.inr ⟨_, rfl⟩)
  | ldB x =>
    rw [exec, execLdB, checkRange_eq] at h
    split at h
    · injection h with h; subst h; exact .inl rfl
    · injection h with h; subst h; exact .inr (.inr ⟨_, rfl⟩)
  | storeRegs x =>
    rw [exec, execStoreRegs, checkRange_eq] at h
    split at h
    · injection h with h; subst h; exact .inl rfl
    · injection h with h; subst h; exact .inr (.inr ⟨_, rfl⟩)
  | loadRegs x =>
    rw [exec, execLoadRegs, checkRange_eq] at h
    split at h
    · injection h with h; subst h; exact .inl rfl
    · injection h with h; subst h; exact .inr (.inr ⟨_, rfl⟩)
  | drw x y n =>
    rw [exec, execDrw, checkRange_eq] at h
    split at h
    · injection h with h; subst h; exact .inl rfl
    · injection h with h; subst h; exact .inr (.inr ⟨_, rfl⟩)
  | skp x =>
    rw [exec, execSkp, skipOnKey] at h
    split at h
    · injection h with h; subst h; exact .inl rfl
    · injection h with h; subst h; exact .inr (.inr ⟨_, rfl⟩)
  | sknp x =>
    rw [exec, execSknp, skipOnKey] at h
    split at h
    · injection h with h; subst h; exact .inl rfl
    · injection h with h; subst h; exact .inr (.inr ⟨_, rfl⟩)
  | ldVxK x =>
    rw [exec, execLdVxK] at h
    split at h
    · injection h with h; subst h; exact .inl rfl
    · rename_i hk
      injection h with h; subst h; exact .inr (.inl ⟨x, rfl, State.leastKey_eq_none.1 hk, rfl⟩)
  | _ => injection h with h; subst h; exact .inl rfl

/-- No instruction writes the key levels or the breakpoint set (10_state.md R25, R28). -/
theorem exec_keeps_outside {i : Instr} {s t : State} (h : exec i s = .next t) :
    t.key = s.key ∧ t.brk = s.brk := by
  cases i with
  | ret =>
    rw [exec, execRet] at h
    split at h
    · injection h with h; subst h; exact ⟨rfl, rfl⟩
    · split at h
      · injection h with h; subst h; exact ⟨rfl, rfl⟩
      · cases h
  | call nnn => rw [exec, execCall] at h; split at h <;> (injection h with h; subst h; exact ⟨rfl, rfl⟩)
  | ldB x => rw [exec, execLdB, checkRange_eq] at h; split at h <;> (injection h with h; subst h; exact ⟨rfl, rfl⟩)
  | storeRegs x =>
    rw [exec, execStoreRegs, checkRange_eq] at h; split at h <;> (injection h with h; subst h; exact ⟨rfl, rfl⟩)
  | loadRegs x =>
    rw [exec, execLoadRegs, checkRange_eq] at h; split at h <;> (injection h with h; subst h; exact ⟨rfl, rfl⟩)
  | drw x y n => rw [exec, execDrw, checkRange_eq] at h; split at h <;> (injection h with h; subst h; exact ⟨rfl, rfl⟩)
  | skp x => rw [exec, execSkp, skipOnKey] at h; split at h <;> (injection h with h; subst h; simp)
  | sknp x => rw [exec, execSknp, skipOnKey] at h; split at h <;> (injection h with h; subst h; simp)
  | ldVxK x => rw [exec, execLdVxK] at h; split at h <;> (injection h with h; subst h; exact ⟨rfl, rfl⟩)
  | seImm x kk => injection h with h; subst h; simp
  | sneImm x kk => injection h with h; subst h; simp
  | seReg x y => injection h with h; subst h; simp
  | sneReg x y => injection h with h; subst h; simp
  | _ => injection h with h; subst h; exact ⟨rfl, rfl⟩

end Machine
end Sys2Proof
end

