-- ==== Sys2Proof/Laws/Step.lean ====
section
/-! SUPPORT. What one Step can do, said once: it pauses, it reports a fetch outside memory, it reports a word that is no
instruction, or it runs the instruction at PC (40_step_cycle.md R80). -/

namespace Sys2Proof
namespace Machine

variable {s : State}

theorem State.breaks_iff : s.breaks = true ↔ s.pc ∈ s.brk ∧ s.lastBreak ≠ some s.pc := by
  simp [breaks]

theorem noPause_iff : NoPause s ↔ s.breaks = false := by
  rw [← Bool.not_eq_true, State.breaks_iff, NoPause]; tauto

theorem State.fetchable_iff : s.fetchable = true ↔ s.pc.toNat ≤ 0xFFE := by
  simp [fetchable]

theorem State.toNat_fetchWord :
    s.fetchWord.toNat = (s.mem.read s.pc.toNat).toNat * 256 + (s.mem.read (s.pc.toNat + 1)).toNat :=
  toNat_wordOfBytes _ _

theorem fetchedWord_iff {w : Word} : FetchedWord s w ↔ w = s.fetchWord := by
  rw [FetchedWord, ← State.toNat_fetchWord, BitVec.toNat_inj]

/-- A word that is not decoded is rejected under its own name (30_encoding.md R69). -/
theorem decode_error {w : Word} {e : DecodeError} (h : decode w = .error e) : e = .invalidOpcode w := by
  rw [decode] at h
  split at h
  · cases h
  · cases h; rfl

theorem step_of_breaks (h : s.breaks = true) :
    step s = .next { s with lastBreak := some s.pc, lastResult := .pausedAtBreakpoint } := by
  rw [step, if_pos h]; rfl

theorem step_of_not_fetchable (hb : s.breaks = false) (hf : s.fetchable = false) :
    step s = .next { s with lastResult := .fault (.fetchOutOfRange s.pc) } := by
  simp only [step, hb, hf]; rfl

theorem step_of_ok {i : Instr} (hb : s.breaks = false) (hf : s.fetchable = true) (hi : decode s.fetchWord = .ok i) :
    step s = exec i s.advance := by
  simp [step, hb, hf, hi]

theorem step_of_error {e : DecodeError} (hb : s.breaks = false) (hf : s.fetchable = true)
    (he : decode s.fetchWord = .error e) :
    step s = .next { s with pc := s.pc + 2, lastResult := .invalidOpcode s.pc s.fetchWord } := by
  simp only [step, hb, hf, he]; rfl

/-- What one Step can do. -/
theorem step_cases (s : State) :
    (s.breaks = true ∧ step s = .next { s with lastBreak := some s.pc, lastResult := .pausedAtBreakpoint }) ∨
    (s.breaks = false ∧ s.fetchable = false ∧
      step s = .next { s with lastResult := .fault (.fetchOutOfRange s.pc) }) ∨
    (s.breaks = false ∧ s.fetchable = true ∧ (∃ e, decode s.fetchWord = .error e) ∧
      step s = .next { s with pc := s.pc + 2, lastResult := .invalidOpcode s.pc s.fetchWord }) ∨
    (s.breaks = false ∧ s.fetchable = true ∧ ∃ i, decode s.fetchWord = .ok i ∧ step s = exec i s.advance) := by
  cases hb : s.breaks with
  | true => exact .inl ⟨rfl, step_of_breaks hb⟩
  | false =>
    cases hf : s.fetchable with
    | false => exact .inr (.inl ⟨rfl, rfl, step_of_not_fetchable hb hf⟩)
    | true =>
      cases hd : decode s.fetchWord with
      | error e => exact .inr (.inr (.inl ⟨rfl, rfl, ⟨e, rfl⟩, step_of_error hb hf hd⟩))
      | ok i => exact .inr (.inr (.inr ⟨rfl, rfl, i, rfl, step_of_ok hb hf hd⟩))

end Machine
end Sys2Proof
end

