-- ==== Sys2Proof/Laws/HostOps.lean ====
section
/-! SUPPORT. The host's operations: the breakpoint set as a set, and what a session answers. -/

namespace Sys2Proof
namespace Machine

/-! ### The breakpoint set (60_exceptions.md R183) -/

theorem risingAddrs_iff (l : List Word) : risingAddrs l = true ↔ l.Pairwise (fun a b => a.toNat < b.toNat) := by
  induction l with
  | nil => simp [risingAddrs]
  | cons a rest ih =>
    cases rest with
    | nil => simp [risingAddrs]
    | cons b r =>
      rw [risingAddrs, Bool.and_eq_true, ih, List.pairwise_cons (a := a), decide_eq_true_eq]
      refine ⟨fun ⟨h, hp⟩ => ⟨?_, hp⟩, fun ⟨h, hp⟩ => ⟨h b (by simp), hp⟩⟩
      rintro c (_ | ⟨_, hc⟩)
      · exact h
      · exact h.trans ((List.pairwise_cons.1 hp).1 c hc)

theorem mem_addAddr {a b : Word} {l : List Word} : b ∈ addAddr a l ↔ b = a ∨ b ∈ l := by
  induction l with
  | nil => simp [addAddr]
  | cons c r ih =>
    rw [addAddr]
    split
    · simp
    · split
      · rename_i h; subst h; simp
      · simp [ih]; tauto

theorem mem_removeAddr {a b : Word} {l : List Word} : b ∈ removeAddr a l ↔ b ≠ a ∧ b ∈ l := by
  simp [removeAddr, and_comm]

theorem risingAddrs_addAddr {a : Word} {l : List Word} (h : risingAddrs l = true) :
    risingAddrs (addAddr a l) = true := by
  rw [risingAddrs_iff] at h ⊢
  induction l with
  | nil => simp [addAddr]
  | cons b r ih =>
    obtain ⟨hb, hr⟩ := List.pairwise_cons.1 h
    rw [addAddr]
    split
    · rename_i hlt
      refine List.pairwise_cons.2 ⟨?_, h⟩
      rintro c (_ | ⟨_, hc⟩)
      · exact hlt
      · exact hlt.trans (hb c hc)
    · split
      · exact h
      · rename_i h1 h2
        refine List.pairwise_cons.2 ⟨fun c hc => ?_, ih hr⟩
        rcases mem_addAddr.1 hc with rfl | hc
        · have : c.toNat ≠ b.toNat := fun e => h2 (BitVec.eq_of_toNat_eq e)
          omega
        · exact hb c hc

theorem risingAddrs_removeAddr {a : Word} {l : List Word} (h : risingAddrs l = true) :
    risingAddrs (removeAddr a l) = true :=
  (risingAddrs_iff _).2 (((risingAddrs_iff _).1 h).filter _)

/-! ### Sessions (70_reset_and_hazards.md R196) -/

/-- An operation the contract does not refuse does to the core what it does alone. -/
theorem Session.perform_of_next {op : HostOp} {m : Session} {t : State} (hc : op ≠ .step ∨ m.loaded = true)
    (h : Sys2Proof.Machine.perform op m.core = .next t) :
    m.perform op = .next { core := t, loaded := loadedAfter op m.loaded } := by
  rw [Session.perform, if_neg (by rcases hc with hc | hc <;> simp [hc]), h]

theorem Session.perform_step_of_not_loaded {m : Session} (h : m.loaded = false) :
    m.perform .step = .refused .stepBeforeLoadRom := by
  rw [Session.perform, if_pos ⟨rfl, h⟩]

theorem bootContract_cons {op : HostOp} {rest : List HostOp} {b : Bool} :
    bootContract b (op :: rest) = true ↔ (op ≠ .step ∨ b = true) ∧ bootContract (loadedAfter op b) rest = true := by
  simp [bootContract]

/-! ### The end of a run (R198) -/

theorem State.ended_iff {s : State} :
    s.ended = true ↔ s.lastResult = .ok ∧ s.pc.toNat ≤ 0xFFE ∧ s.fetchWord = 0x1000 + s.pc := by
  simp [State.ended, State.fetchable_iff, and_assoc]

end Machine
end Sys2Proof
end

