-- ==== Sys2Proof/Laws/PerInstr.lean ====
section
/-! SUPPORT. The per-instruction family EncodesToItsRow: each instruction's word is accepted by the pattern of the
instruction's own row of the opcode table, whose entry makes the instruction of that word (30_encoding.md R66). -/

namespace Sys2Proof
namespace Laws
namespace EncodesToItsRow

/-- The row of R66 an instruction stands in, counted from 0. -/
def rowOf : Instr → Nat
  | .cls => 0
  | .ret => 1
  | .jp _ => 2
  | .call _ => 3
  | .seImm _ _ => 4
  | .sneImm _ _ => 5
  | .seReg _ _ => 6
  | .ldImm _ _ => 7
  | .addImm _ _ => 8
  | .ldReg _ _ => 9
  | .orReg _ _ => 10
  | .andReg _ _ => 11
  | .xorReg _ _ => 12
  | .addReg _ _ => 13
  | .sub _ _ => 14
  | .shr _ _ => 15
  | .subn _ _ => 16
  | .shl _ _ => 17
  | .sneReg _ _ => 18
  | .ldI _ => 19
  | .jpV0 _ => 20
  | .rnd _ _ => 21
  | .drw _ _ _ => 22
  | .skp _ => 23
  | .sknp _ => 24
  | .ldVxDt _ => 25
  | .ldVxK _ => 26
  | .ldDtVx _ => 27
  | .ldStVx _ => 28
  | .addI _ => 29
  | .ldF _ => 30
  | .ldB _ => 31
  | .storeRegs _ => 32
  | .loadRegs _ => 33

/-- The instruction's word is accepted by its row's pattern, and the row makes the instruction of it. -/
def Statement (i : Instr) : Prop :=
  ∃ r, opcodeTable[rowOf i]? = some r ∧ r.pattern.accepts (Opcode.ofWord (encode i)) = true ∧
    r.make (Opcode.ofWord (encode i)) = i

theorem cls : Statement .cls := ⟨_, rfl, by decide, rfl⟩

theorem ret : Statement .ret := ⟨_, rfl, by decide, rfl⟩

theorem jp (nnn : Addr12) : Statement (.jp nnn) :=
  ⟨_, rfl, by simp [Pattern.accepts, Pattern.fieldMatches, encode], by simp [encode]⟩

theorem call (nnn : Addr12) : Statement (.call nnn) :=
  ⟨_, rfl, by simp [Pattern.accepts, Pattern.fieldMatches, encode], by simp [encode]⟩

theorem seImm (x : Reg) (kk : Byte) : Statement (.seImm x kk) :=
  ⟨_, rfl, by simp [Pattern.accepts, Pattern.fieldMatches, encode], by simp [encode]⟩

theorem sneImm (x : Reg) (kk : Byte) : Statement (.sneImm x kk) :=
  ⟨_, rfl, by simp [Pattern.accepts, Pattern.fieldMatches, encode], by simp [encode]⟩

theorem seReg (x : Reg) (y : Reg) : Statement (.seReg x y) :=
  ⟨_, rfl, by simp [Pattern.accepts, Pattern.fieldMatches, encode], by simp [encode]⟩

theorem ldImm (x : Reg) (kk : Byte) : Statement (.ldImm x kk) :=
  ⟨_, rfl, by simp [Pattern.accepts, Pattern.fieldMatches, encode], by simp [encode]⟩

theorem addImm (x : Reg) (kk : Byte) : Statement (.addImm x kk) :=
  ⟨_, rfl, by simp [Pattern.accepts, Pattern.fieldMatches, encode], by simp [encode]⟩

theorem ldReg (x : Reg) (y : Reg) : Statement (.ldReg x y) :=
  ⟨_, rfl, by simp [Pattern.accepts, Pattern.fieldMatches, encode], by simp [encode]⟩

theorem orReg (x : Reg) (y : Reg) : Statement (.orReg x y) :=
  ⟨_, rfl, by simp [Pattern.accepts, Pattern.fieldMatches, encode], by simp [encode]⟩

theorem andReg (x : Reg) (y : Reg) : Statement (.andReg x y) :=
  ⟨_, rfl, by simp [Pattern.accepts, Pattern.fieldMatches, encode], by simp [encode]⟩

theorem xorReg (x : Reg) (y : Reg) : Statement (.xorReg x y) :=
  ⟨_, rfl, by simp [Pattern.accepts, Pattern.fieldMatches, encode], by simp [encode]⟩

theorem addReg (x : Reg) (y : Reg) : Statement (.addReg x y) :=
  ⟨_, rfl, by simp [Pattern.accepts, Pattern.fieldMatches, encode], by simp [encode]⟩

theorem sub (x : Reg) (y : Reg) : Statement (.sub x y) :=
  ⟨_, rfl, by simp [Pattern.accepts, Pattern.fieldMatches, encode], by simp [encode]⟩

theorem shr (x : Reg) (y : Reg) : Statement (.shr x y) :=
  ⟨_, rfl, by simp [Pattern.accepts, Pattern.fieldMatches, encode], by simp [encode]⟩

theorem subn (x : Reg) (y : Reg) : Statement (.subn x y) :=
  ⟨_, rfl, by simp [Pattern.accepts, Pattern.fieldMatches, encode], by simp [encode]⟩

theorem shl (x : Reg) (y : Reg) : Statement (.shl x y) :=
  ⟨_, rfl, by simp [Pattern.accepts, Pattern.fieldMatches, encode], by simp [encode]⟩

theorem sneReg (x : Reg) (y : Reg) : Statement (.sneReg x y) :=
  ⟨_, rfl, by simp [Pattern.accepts, Pattern.fieldMatches, encode], by simp [encode]⟩

theorem ldI (nnn : Addr12) : Statement (.ldI nnn) :=
  ⟨_, rfl, by simp [Pattern.accepts, Pattern.fieldMatches, encode], by simp [encode]⟩

theorem jpV0 (nnn : Addr12) : Statement (.jpV0 nnn) :=
  ⟨_, rfl, by simp [Pattern.accepts, Pattern.fieldMatches, encode], by simp [encode]⟩

theorem rnd (x : Reg) (kk : Byte) : Statement (.rnd x kk) :=
  ⟨_, rfl, by simp [Pattern.accepts, Pattern.fieldMatches, encode], by simp [encode]⟩

theorem drw (x : Reg) (y : Reg) (n : Nibble) : Statement (.drw x y n) :=
  ⟨_, rfl, by simp [Pattern.accepts, Pattern.fieldMatches, encode], by simp [encode]⟩

theorem skp (x : Reg) : Statement (.skp x) :=
  ⟨_, rfl, by simp [Pattern.accepts, Pattern.fieldMatches, encode], by simp [encode]⟩

theorem sknp (x : Reg) : Statement (.sknp x) :=
  ⟨_, rfl, by simp [Pattern.accepts, Pattern.fieldMatches, encode], by simp [encode]⟩

theorem ldVxDt (x : Reg) : Statement (.ldVxDt x) :=
  ⟨_, rfl, by simp [Pattern.accepts, Pattern.fieldMatches, encode], by simp [encode]⟩

theorem ldVxK (x : Reg) : Statement (.ldVxK x) :=
  ⟨_, rfl, by simp [Pattern.accepts, Pattern.fieldMatches, encode], by simp [encode]⟩

theorem ldDtVx (x : Reg) : Statement (.ldDtVx x) :=
  ⟨_, rfl, by simp [Pattern.accepts, Pattern.fieldMatches, encode], by simp [encode]⟩

theorem ldStVx (x : Reg) : Statement (.ldStVx x) :=
  ⟨_, rfl, by simp [Pattern.accepts, Pattern.fieldMatches, encode], by simp [encode]⟩

theorem addI (x : Reg) : Statement (.addI x) :=
  ⟨_, rfl, by simp [Pattern.accepts, Pattern.fieldMatches, encode], by simp [encode]⟩

theorem ldF (x : Reg) : Statement (.ldF x) :=
  ⟨_, rfl, by simp [Pattern.accepts, Pattern.fieldMatches, encode], by simp [encode]⟩

theorem ldB (x : Reg) : Statement (.ldB x) :=
  ⟨_, rfl, by simp [Pattern.accepts, Pattern.fieldMatches, encode], by simp [encode]⟩

theorem storeRegs (x : Reg) : Statement (.storeRegs x) :=
  ⟨_, rfl, by simp [Pattern.accepts, Pattern.fieldMatches, encode], by simp [encode]⟩

theorem loadRegs (x : Reg) : Statement (.loadRegs x) :=
  ⟨_, rfl, by simp [Pattern.accepts, Pattern.fieldMatches, encode], by simp [encode]⟩

end EncodesToItsRow
end Laws
end Sys2Proof
end

