-- ==== Sys2Proof/Tests/Slice0.lean ====
section
/-! SUPPORT. The model's own tests. Expected values are the spec's: the words and tables of 95_test_vectors.md (the
section is named at each group) or hand calculation from the rule named. The last part holds the witnesses: for every
statement with hypotheses, a concrete state and operands that meet them, each clause at a boundary of its range. -/

namespace Sys2Proof
namespace Machine
namespace Tests

/-! ### Helpers -/

/-- One part of the next state, if there is one. -/
def look {α : Type} (f : State → α) : Result → Option α
  | .next t => some (f t)
  | .fault _ => none
  | .refused _ => none

/-- One Step with a word placed where it fetches. -/
def run (w : Nat) (s : State) : Result := step (s.withFetchWord 16 w)

/-- The reset state with two registers, by index and value. -/
def two (j : Reg) (a : Byte) (k : Reg) (b : Byte) : State := (State.reset.setReg j a).setReg k b

/-- The reset state with I, and bytes of memory from there on. -/
def sprite (i : Word) (bytes : List Byte) : State :=
  { State.reset with i := i, mem := Memory.writeBytes [] i.toNat bytes }

/-- The reset state with V0 and V1 as coordinates over a sprite at 0x300. -/
def at01 (a b : Byte) (bytes : List Byte) : State := ((sprite 0x300 bytes).setReg 0 a).setReg 1 b

/-- The reset state with the keys of a list pressed. -/
def keysDown (ks : List Nat) : State := ks.foldr setKey State.reset

/-- The cells that are set, row by row. -/
def cells (fb : FrameBuffer) : List (Nat × Nat) :=
  ((List.range 32).map fun y => ((List.range 64).filter fun x => fb.pixel x y).map fun x => (x, y)).flatten

/-! ### WellFormed: each check refuses an ill-formed term, and takes the last well-formed one -/

theorem test_reg_refuses_16 : WellFormed.reg? 16 = none ∧ WellFormed.reg? 15 = some 15 := by decide

theorem test_imm4_refuses_16 : WellFormed.imm4? 16 = none ∧ WellFormed.imm4? 15 = some 0xF := by decide

theorem test_imm8_refuses_256 : WellFormed.imm8? 256 = none ∧ WellFormed.imm8? 255 = some 0xFF := by decide

theorem test_addr12_refuses_4096 : WellFormed.addr12? 4096 = none ∧ WellFormed.addr12? 4095 = some 0xFFF := by decide

theorem test_rom_refuses_3585_bytes :
    WellFormed.rom (List.replicate 3585 0) = false ∧ WellFormed.rom (List.replicate 3584 0) = true := by
  constructor <;> (rw [WellFormed.rom, List.length_replicate]; decide)

theorem test_font_refuses_79_bytes :
    WellFormed.font (defaultFont.drop 1) = false ∧ WellFormed.font defaultFont = true := by decide

/-! ### Decoding: the word of every constructor, its four nibbles written out from the table of R66 -/

theorem test_decode_flow :
    decodeTableWord 16 0b0000000011101110 = some .ret ∧                 -- 00EE
    decodeTableWord 16 0b0001001000110100 = some (.jp 0x234) ∧          -- 1nnn
    decodeTableWord 16 0b0010110111101111 = some (.call 0xDEF) ∧        -- 2nnn, the source's 0x2DEF
    decodeTableWord 16 0b0011101000000101 = some (.seImm 10 5) ∧        -- 3xkk
    decodeTableWord 16 0b0100101000000101 = some (.sneImm 10 5) ∧       -- 4xkk
    decodeTableWord 16 0b0101000100100000 = some (.seReg 1 2) ∧         -- 5xy0
    decodeTableWord 16 0b1001000100100000 = some (.sneReg 1 2) ∧        -- 9xy0
    decodeTableWord 16 0b1011001100000000 = some (.jpV0 0x300) := by decide  -- Bnnn

theorem test_decode_loads_and_logic :
    decodeTableWord 16 0b0110111011111111 = some (.ldImm 14 0xFF) ∧     -- 6xkk, the source's 0x6EFF
    decodeTableWord 16 0b0111111000010001 = some (.addImm 14 0x11) ∧    -- 7xkk, the source's 0x7E11
    decodeTableWord 16 0b1000000100100000 = some (.ldReg 1 2) ∧         -- 8xy0
    decodeTableWord 16 0b1000000100100001 = some (.orReg 1 2) ∧         -- 8xy1
    decodeTableWord 16 0b1000000100100010 = some (.andReg 1 2) ∧        -- 8xy2
    decodeTableWord 16 0b1000000100100011 = some (.xorReg 1 2) := by decide  -- 8xy3

theorem test_decode_arithmetic :
    decodeTableWord 16 0b1000000100100100 = some (.addReg 1 2) ∧        -- 8xy4
    decodeTableWord 16 0b1000000100100101 = some (.sub 1 2) ∧           -- 8xy5
    decodeTableWord 16 0b1000000100100110 = some (.shr 1 2) ∧           -- 8xy6
    decodeTableWord 16 0b1000000100100111 = some (.subn 1 2) ∧          -- 8xy7
    decodeTableWord 16 0b1000000100101110 = some (.shl 1 2) ∧           -- 8xyE
    decodeTableWord 16 0b1100000100001111 = some (.rnd 1 0x0F) := by decide  -- Cxkk

theorem test_decode_index_and_memory :
    decodeTableWord 16 0b1010001011110000 = some (.ldI 0x2F0) ∧         -- Annn
    decodeTableWord 16 0b1111000100011110 = some (.addI 1) ∧            -- Fx1E
    decodeTableWord 16 0b1111000100101001 = some (.ldF 1) ∧             -- Fx29
    decodeTableWord 16 0b1111000100110011 = some (.ldB 1) ∧             -- Fx33
    decodeTableWord 16 0b1111000101010101 = some (.storeRegs 1) ∧       -- Fx55
    decodeTableWord 16 0b1111000101100101 = some (.loadRegs 1) := by decide  -- Fx65

theorem test_decode_display_keypad_timers :
    decodeTableWord 16 0b0000000011100000 = some .cls ∧                 -- 00E0
    decodeTableWord 16 0b1101000100100101 = some (.drw 1 2 5) ∧         -- Dxyn
    decodeTableWord 16 0b1110000110011110 = some (.skp 1) ∧             -- Ex9E
    decodeTableWord 16 0b1110000110100001 = some (.sknp 1) ∧            -- ExA1
    decodeTableWord 16 0b1111000100000111 = some (.ldVxDt 1) ∧          -- Fx07
    decodeTableWord 16 0b1111000100001010 = some (.ldVxK 1) ∧           -- Fx0A
    decodeTableWord 16 0b1111000100010101 = some (.ldDtVx 1) ∧          -- Fx15
    decodeTableWord 16 0b1111000100011000 = some (.ldStVx 1) := by decide  -- Fx18

/-- 95_test_vectors.md 2.1: the words it lists as invalid. -/
theorem test_invalid_words_are_rejected :
    (([0x0000, 0x00E1, 0x0123, 0x0FFF, 0x5121, 0x512F, 0x912F, 0xE19F, 0xE100] : List Nat) ++
      [0x8128, 0x8129, 0x812A, 0x812B, 0x812C, 0x812D, 0x812F, 0xF100, 0xF175, 0xF185, 0xF1FF]).all
      (fun w => decodeTableWord 16 w == none) = true := by decide

/-- Fewer than two bytes are no instruction (R60), and only two are taken (R72). -/
theorem test_decode_takes_two_bytes :
    (match decodeBytes [0x12] with | .error .truncated => true | _ => false) = true ∧
    (match decodeBytes [0x12, 0x34, 0x56] with | .ok (.jp 0x234, [0x56]) => true | _ => false) = true := by decide

/-! ### The Step cycle (95_test_vectors.md 2.2) -/

/-- An odd address executes, and the byte at the lower address is the more significant. -/
theorem test_odd_address_executes :
    look (fun t => (t.reg 0, t.pc, t.lastResult))
      (step { State.reset with pc := 0x201, mem := [(0x201, 0x60), (0x202, 0x07)] }) = some (7, 0x203, .ok) := by decide

theorem test_last_word_of_memory_executes :
    look (fun t => (t.reg 0, t.pc, t.lastResult))
      (step { State.reset with pc := 0xFFE, mem := [(0xFFE, 0x60), (0xFFF, 0x01)] }) = some (1, 0x1000, .ok) := by decide

theorem test_fetch_at_0xFFF_faults :
    look (fun t => (t.pc, t.lastResult)) (step { State.reset with pc := 0xFFF }) =
      some (0xFFF, .fault (.fetchOutOfRange 0xFFF)) := by decide

theorem test_breakpoint_pauses :
    look (fun t => (t.lastResult, t.lastBreak, t.pc, t.reg 0))
      (step { State.reset with brk := [0x200], mem := [(0x200, 0x60), (0x201, 0x01)] }) =
      some (.pausedAtBreakpoint, some 0x200, 0x200, 0) := by decide

theorem test_breakpoint_pauses_once :
    look (fun t => (t.lastResult, t.lastBreak, t.pc, t.reg 0))
      (step { State.reset with brk := [0x200], lastBreak := some 0x200, mem := [(0x200, 0x60), (0x201, 0x01)] }) =
      some (.ok, some 0x200, 0x202, 1) := by decide

theorem test_invalid_word_is_skipped :
    look (fun t => (t.lastResult, t.pc)) (run 0x0123 State.reset) = some (.invalidOpcode 0x200 0x0123, 0x202) := by decide

/-! ### Control transfer and skips (2.3) -/

theorem test_jp : look (·.pc) (run 0x1234 State.reset) = some 0x234 := by decide

theorem test_call_pushes_above_sp :
    look (fun t => (t.sp, t.stack[1], t.stack[0], t.pc)) (run 0x2300 State.reset) = some (1, 0x202, 0, 0x300) := by decide

theorem test_call_on_a_full_stack :
    look (fun t => (t.sp, t.stack[15], t.pc, t.lastResult)) (run 0x2300 { State.reset with sp := 15 }) =
      some (15, 0, 0x202, .fault (.stackOverflow 15)) := by decide

/-- The source's example: stack[5] = 0x05, SP = 5. -/
theorem test_ret :
    look (fun t => (t.pc, t.sp, t.stack[5]))
      (run 0x00EE { State.reset with sp := 5, stack := State.reset.stack.set 5 5 }) = some (5, 4, 5) := by decide

theorem test_ret_on_an_empty_stack :
    look (fun t => (t.pc, t.sp, t.lastResult)) (run 0x00EE State.reset) = some (0x202, 0, .fault .stackUnderflow) := by decide

theorem test_se_imm :
    look (·.pc) (run 0x3A05 (two 10 5 0 0)) = some 0x204 ∧ look (·.pc) (run 0x3A05 (two 10 6 0 0)) = some 0x202 := by decide

theorem test_sne_imm :
    look (·.pc) (run 0x4A05 (two 10 5 0 0)) = some 0x202 ∧ look (·.pc) (run 0x4A05 (two 10 6 0 0)) = some 0x204 := by decide

theorem test_se_reg :
    look (·.pc) (run 0x5120 (two 1 0x7F 2 0x7F)) = some 0x204 ∧ look (·.pc) (run 0x5120 (two 1 1 2 2)) = some 0x202 := by
  decide

theorem test_sne_reg :
    look (·.pc) (run 0x9120 (two 1 1 2 2)) = some 0x204 ∧ look (·.pc) (run 0x9120 (two 1 7 2 7)) = some 0x202 := by decide

theorem test_jp_v0_is_not_reduced : look (·.pc) (run 0xBFFF (two 0 0xFF 15 0)) = some 0x10FE := by decide

/-! ### Arithmetic and logic (2.4) -/

theorem test_ld_imm : look (fun t => t.reg 14) (run 0x6EFF State.reset) = some 0xFF := by decide

theorem test_add_imm_has_no_flag : look (fun t => (t.reg 0, t.reg VF)) (run 0x7001 (two 0 0xFF 15 0)) = some (0, 0) := by
  decide

theorem test_ld_reg : look (fun t => (t.reg 1, t.reg 2)) (run 0x8120 (two 1 0 2 0x3C)) = some (0x3C, 0x3C) := by decide

theorem test_or_keeps_vf :
    look (fun t => (t.reg 1, t.reg VF)) (run 0x8121 ((two 1 0xF0 2 0x0F).setReg VF 1)) = some (0xFF, 1) := by decide

theorem test_and : look (fun t => t.reg 1) (run 0x8122 (two 1 0xF0 2 0x3C)) = some 0x30 := by decide

theorem test_xor : look (fun t => t.reg 1) (run 0x8123 (two 1 0xF0 2 0x3C)) = some 0xCC := by decide

theorem test_add_carry :
    look (fun t => (t.reg 1, t.reg VF)) (run 0x8124 (two 1 0xC8 2 0x64)) = some (0x2C, 1) ∧
    look (fun t => (t.reg 1, t.reg VF)) (run 0x8124 ((two 1 1 2 2).setReg VF 1)) = some (3, 0) := by decide

theorem test_add_into_vf_keeps_the_sum : look (·.reg VF) (run 0x8F14 (two 15 0xF0 1 0x20)) = some 0x10 := by decide

theorem test_sub_is_strict :
    look (fun t => (t.reg 1, t.reg VF)) (run 0x8125 (two 1 3 2 5)) = some (0xFE, 0) ∧
    look (fun t => (t.reg 1, t.reg VF)) (run 0x8125 (two 1 5 2 5)) = some (0, 0) := by decide

/-- Vy = VF is read before the flag is written. -/
theorem test_sub_reads_vf_first : look (fun t => (t.reg 1, t.reg VF)) (run 0x81F5 (two 1 5 15 3)) = some (2, 1) := by
  decide

theorem test_subn :
    look (fun t => (t.reg 1, t.reg VF)) (run 0x8127 (two 1 3 2 5)) = some (2, 1) ∧
    look (fun t => (t.reg 1, t.reg VF)) (run 0x8127 (two 1 5 2 3)) = some (0xFE, 0) := by decide

theorem test_shr_ignores_y : look (fun t => (t.reg 1, t.reg VF)) (run 0x81F6 (two 1 5 15 0x80)) = some (2, 1) := by decide

theorem test_shr_of_vf : look (·.reg VF) (run 0x8F06 (two 15 6 0 0)) = some 3 := by decide

theorem test_shl : look (fun t => (t.reg 1, t.reg VF)) (run 0x810E (two 1 0x81 0 0)) = some (2, 1) := by decide

theorem test_shl_of_vf : look (·.reg VF) (run 0x8F0E (two 15 0x81 0 0)) = some 2 := by decide

/-- The random byte is free: with kk = 0 the result is 0 whatever it is, with kk = 0xFF it is the byte itself. -/
theorem test_rnd_is_masked :
    look (fun t => t.reg 1) (run 0xC100 State.reset) = some 0 ∧
    look (fun t => t.reg 1) (run 0xC1FF State.reset) = some (Config.rnd 0) := by
  have h0 : look (fun t => t.reg 1) (run 0xC100 State.reset) = some (Config.rnd 0 &&& 0#8) := rfl
  have h1 : look (fun t => t.reg 1) (run 0xC1FF State.reset) = some (Config.rnd 0 &&& BitVec.allOnes 8) := rfl
  exact ⟨h0.trans (congrArg some BitVec.and_zero), h1.trans (congrArg some BitVec.and_allOnes)⟩

theorem test_rnd_takes_one_byte : look (fun t => (t.pc, t.draws)) (run 0xC1FF State.reset) = some (0x202, 1) := by decide

/-! ### Index and memory (2.5) -/

theorem test_ld_i : look (·.i) (run 0xA2F0 State.reset) = some 0x2F0 := by decide

theorem test_add_i_is_16_bits :
    look (·.i) (run 0xF11E { two 1 1 15 0 with i := 0xFFF }) = some 0x1000 ∧
    look (·.i) (run 0xF11E { two 1 1 15 0 with i := 0xFFFF }) = some 0 := by decide

theorem test_ld_f :
    look (·.i) (run 0xF029 (two 0 0x0A 1 0)) = some 0x032 ∧ look (·.i) (run 0xF029 (two 0 0xFF 1 0)) = some 0x4FB := by decide

theorem test_ld_b :
    look (fun t => t.mem.readBytes 0x300 3) (run 0xF033 { two 0 255 1 0 with i := 0x300 }) = some [2, 5, 5] ∧
    look (fun t => t.mem.readBytes 0xFFD 3) (run 0xF033 { two 0 100 1 0 with i := 0xFFD }) = some [1, 0, 0] := by decide

theorem test_ld_b_out_of_range :
    look (fun t => (t.mem.readBytes 0xFFE 2, t.pc, t.lastResult)) (run 0xF033 { two 0 255 1 0 with i := 0xFFE }) =
      some ([0, 0], 0x202, .fault (.memOutOfRange 0xFFE 3)) := by decide

/-- V0 to VF = 1 to 16 at 0x400; I stays. -/
theorem test_store_all :
    look (fun t => (t.mem.readBytes 0x400 16, t.i))
      (run 0xFF55 { State.reset with i := 0x400, v := Vector.ofFn fun j => BitVec.ofNat 8 (j.val + 1) }) =
      some ([1, 2, 3, 4, 5, 6, 7, 8, 9, 10, 11, 12, 13, 14, 15, 16], 0x400) := by decide

theorem test_store_out_of_range :
    look (fun t => (t.mem.read 0xFF1, t.pc, t.lastResult)) (run 0xFF55 { two 0 9 1 9 with i := 0xFF1 }) =
      some (0, 0x202, .fault (.memOutOfRange 0xFF1 16)) := by decide

/-- The font bytes at 0x000 (GK2); V2 is not loaded. -/
theorem test_load_from_the_font :
    look (fun t => (t.reg 0, t.reg 1, t.reg 2)) (run 0xF165 (two 2 7 3 0)) = some (0xF0, 0x90, 7) := by decide

theorem test_load_out_of_range :
    look (fun t => (t.reg 0, t.pc, t.lastResult)) (run 0xF265 { two 0 9 1 9 with i := 0xFFE }) =
      some (9, 0x202, .fault (.memOutOfRange 0xFFE 3)) := by decide

/-! ### Display (2.6) -/

theorem test_cls_keeps_vf :
    look (fun t => (t.fb, t.reg VF)) (run 0x00E0 { two 15 1 0 0 with fb := FrameBuffer.blank.toggle 3 4 }) =
      some (FrameBuffer.blank, 1) := by decide

/-- Columns wrap, they are not clipped. -/
theorem test_drw_wraps :
    look (fun t => (cells t.fb, t.reg VF)) (run 0xD011 (at01 60 0 [0xFF])) =
      some ([(0, 0), (1, 0), (2, 0), (3, 0), (60, 0), (61, 0), (62, 0), (63, 0)], 0) := by decide

/-- A collision: FB[1,0] is set already. -/
theorem test_drw_collides :
    look (fun t => (cells t.fb, t.reg VF))
      (run 0xD011 { at01 0 0 [0xC0] with fb := FrameBuffer.blank.toggle 1 0 }) = some ([(0, 0)], 1) := by decide

/-! ### Keypad and timers (2.7) -/

theorem test_skp :
    look (·.pc) (run 0xE19E ((keysDown [4]).setReg 1 4)) = some 0x204 ∧
    look (·.pc) (run 0xE19E (two 1 4 0 0)) = some 0x202 := by decide

theorem test_skp_index_out_of_range :
    look (fun t => (t.pc, t.lastResult)) (run 0xE19E (two 1 0x10 0 0)) =
      some (0x202, .fault (.keyIndexOutOfRange 0x10)) := by decide

theorem test_sknp :
    look (·.pc) (run 0xE1A1 ((keysDown [4]).setReg 1 4)) = some 0x202 ∧
    look (·.pc) (run 0xE1A1 (two 1 4 0 0)) = some 0x204 := by decide

theorem test_ld_vx_dt : look (fun t => (t.reg 3, t.dt)) (run 0xF307 { State.reset with dt := 0x2A }) = some (0x2A, 0x2A) := by
  decide

theorem test_ld_dt_vx : look (·.dt) (run 0xF015 (two 0 0x3C 1 0)) = some 0x3C := by decide

theorem test_ld_st_vx : look (·.st) (run 0xF018 (two 0 5 1 0)) = some 5 := by decide

theorem test_wait_repeats :
    look (fun t => (t.lastResult, t.pc, t.reg 5)) (run 0xF50A { two 5 8 0 0 with pc := 0x230 }) =
      some (.waitingForKey, 0x230, 8) := by decide

theorem test_wait_takes_the_least_key :
    look (fun t => (t.lastResult, t.pc, t.reg 5, t.key[3])) (run 0xF50A { keysDown [3, 9, 12] with pc := 0x230 }) =
      some (.ok, 0x232, 3, true) := by decide

theorem test_ticks :
    (tickDelayTimer { State.reset with dt := 3 }).dt = 2 ∧ (tickDelayTimer State.reset).dt = 0 ∧
    (tick60 { State.reset with dt := 5 }).dt = 4 ∧ (tickSoundTimer { State.reset with st := 1 }).st = 0 := by decide

theorem test_key_events :
    (setKey 4 State.reset).key[4] = true ∧ (clearKey 4 (keysDown [4])).key[4] = false ∧
    setKey 16 State.reset = State.reset := by decide

/-! ### Reset (2.8) -/

/-- A state that a program has used, the row of 2.8 that starts from one. -/
def used : State :=
  { State.reset with
    v := State.reset.v.set 3 7, i := 0x123, sp := 2, stack := State.reset.stack.set 1 0x222, dt := 9, st := 8
    fb := FrameBuffer.blank.toggle 1 1, key := State.reset.key.set 2 true, brk := [0x200], lastBreak := some 0x200
    mem := [(0x000, 0x55), (0x200, 1), (0x201, 2), (0x202, 3), (0x203, 4)] }

theorem test_load_rom :
    loadRom [0xAA] used = (.loaded, { State.reset with
      stack := State.reset.stack.set 1 0x222, key := State.reset.key.set 2 true
      mem := [(0x000, 0x55), (0x200, 0xAA), (0x201, 2), (0x202, 3), (0x203, 4)] }) := by decide

theorem test_construct :
    (perform (.construct (Vector.replicate 80 0xFF)) used |> look fun t => (t.pc, t.reg 3, t.mem.readBytes 0x4E 4)) =
      some (0, 0, [0xFF, 0xFF, 0, 0]) := by decide

/-! ### The boot contract and the end of a run (R196, R198) -/

/-- What a session answers: 0 a next session, 1 a fault, 2 the refusal of a Step before the first LoadRom, 3 another. -/
def answer : SessionResult → Nat
  | .next _ => 0
  | .fault _ => 1
  | .refused .stepBeforeLoadRom => 2
  | .refused (.notModelled _) => 3

theorem test_step_before_load_rom_is_refused :
    answer ((Session.powerOn (Vector.replicate 80 0)).run [.tickDelayTimer, .step]) = 2 ∧
    answer ((Session.powerOn (Vector.replicate 80 0)).run [.loadRom [0x12, 0x00], .step]) = 0 ∧
    answer (Session.launch.run [.step, .construct (Vector.replicate 80 0), .step]) = 2 := ⟨rfl, rfl, rfl⟩

/-- JP 0x200 at 0x200 ends a run (the end of each program of section 3); a JP elsewhere, or a failed Step, does not. -/
theorem test_end_of_run :
    (State.reset.withFetchWord 16 0x1200).ended = true ∧ (State.reset.withFetchWord 16 0x1202).ended = false ∧
    ({ State.reset.withFetchWord 16 0x1200 with lastResult := .waitingForKey } : State).ended = false := by decide

/-! ### Witnesses: for each statement with hypotheses, a state and operands that meet them -/

/-- The last word of memory is LD V0,1, and PC is there. -/
def lastWord : State := { State.reset with pc := 0xFFE, mem := [(0xFFE, 0x60), (0xFFF, 0x01)] }

theorem witness_EncodeOfDecodeIsTheWord : decode 0x812E = .ok (.shl 1 2) := rfl

theorem witness_NoWordMatchesTwoPatterns :
    opcodeTable[1].pattern.accepts (Opcode.ofWord 0x00EE) = true ∧ opcodeTable.reverse.Perm opcodeTable :=
  ⟨by decide, List.reverse_perm _⟩

theorem witness_InvalidWordsAreExactlyThoseListed :
    InvalidWord 0x00E1 ∧ InvalidWord 0x5001 ∧ InvalidWord 0x800F ∧ InvalidWord 0x9001 ∧ InvalidWord 0xEFFF ∧
    InvalidWord 0xFFFF ∧ ¬ InvalidWord 0x00E0 ∧ ¬ InvalidWord 0x5000 ∧ ¬ InvalidWord 0x800E ∧ ¬ InvalidWord 0x9000 ∧
    ¬ InvalidWord 0xEFA1 ∧ ¬ InvalidWord 0xFF65 := by
  refine ⟨?_, ?_, ?_, ?_, ?_, ?_, ?_, ?_, ?_, ?_, ?_, ?_⟩ <;> (unfold InvalidWord; decide)

theorem witness_StepRunsTheDecodedInstruction :
    NoPause lastWord ∧ lastWord.pc.toNat ≤ 0xFFE ∧ FetchedWord lastWord 0x6001 ∧ decode 0x6001 = .ok (.ldImm 0 1) :=
  ⟨by unfold NoPause; decide, by decide, by unfold FetchedWord; decide, rfl⟩

theorem witness_InvalidWordIsReportedAndSkipped :
    NoPause State.reset ∧ State.reset.pc.toNat ≤ 0xFFE ∧ FetchedWord State.reset 0 ∧ InvalidWord 0 :=
  ⟨by unfold NoPause; decide, by decide, by unfold FetchedWord; decide, by unfold InvalidWord; decide⟩

theorem witness_FetchOutsideMemoryFaultsAndRepeats :
    NoPause { State.reset with pc := 0xFFF } ∧ 0xFFE < ({ State.reset with pc := 0xFFF } : State).pc.toNat :=
  ⟨by unfold NoPause; decide, by decide⟩

/-- The first clause at a breakpoint not paused at; the others at one paused at already, where the Step executes. -/
theorem witness_BreakpointPausesOnce :
    (∃ s : State, s.pc ∈ s.brk ∧ s.lastBreak ≠ some s.pc) ∧
    ∃ s t : State, s.pc ∈ s.brk ∧ NoPause s ∧ step s = .next t ∧ t.lastResult ≠ .pausedAtBreakpoint :=
  ⟨⟨{ State.reset with brk := [0x200] }, by decide, by decide⟩,
    { lastWord with brk := [0xFFE], lastBreak := some 0xFFE }, _, by decide, by unfold NoPause; decide, rfl, by decide⟩

theorem witness_EachResultChangesWhatItsRowSays :
    (∃ s t : State, step s = .next t ∧ t.lastResult = .ok) ∧
    (∃ s t : State, step s = .next t ∧ t.lastResult = .waitingForKey) ∧
    (∃ s t : State, step s = .next t ∧ t.lastResult = .invalidOpcode 0x200 0) ∧
    (∃ s t : State, step s = .next t ∧ t.lastResult = .pausedAtBreakpoint) ∧
    (∃ s t : State, step s = .next t ∧ t.lastResult = .fault (.fetchOutOfRange 0xFFF)) ∧
    ∃ s t : State, step s = .next t ∧ t.lastResult = .fault .stackUnderflow :=
  ⟨⟨lastWord, _, rfl, rfl⟩, ⟨State.reset.withFetchWord 16 0xF00A, _, rfl, rfl⟩, ⟨State.reset, _, rfl, rfl⟩,
    ⟨{ State.reset with brk := [0x200] }, _, rfl, rfl⟩, ⟨{ State.reset with pc := 0xFFF }, _, rfl, rfl⟩,
    State.reset.withFetchWord 16 0x00EE, _, rfl, rfl⟩

/-- Each handler fault at the first value that raises it, and no fault at the last value that does not. -/
theorem witness_HandlerFaultsAreThoseOfTheTable :
    (look (·.lastResult) (exec (.call 0x300) { State.reset with sp := 15 }) = some (.fault (.stackOverflow 15)) ∧
      look (·.lastResult) (exec (.call 0x300) { State.reset with sp := 14 }) = some .ok) ∧
    (look (·.lastResult) (exec .ret State.reset) = some (.fault .stackUnderflow) ∧
      look (·.lastResult) (exec .ret { State.reset with sp := 1 }) = some .ok) ∧
    (look (·.lastResult) (exec (.drw 0 1 15) { State.reset with i := 0xFF2 }) =
        some (.fault (.memOutOfRange 0xFF2 15)) ∧
      look (·.lastResult) (exec (.drw 0 1 0) { State.reset with i := 0xFFFF }) = some .ok) ∧
    (look (·.lastResult) (exec (.ldB 1) { State.reset with i := 0xFFE }) = some (.fault (.memOutOfRange 0xFFE 3)) ∧
      look (·.lastResult) (exec (.loadRegs 15) { State.reset with i := 0xFF1 }) =
        some (.fault (.memOutOfRange 0xFF1 16)) ∧
      look (·.lastResult) (exec (.loadRegs 15) { State.reset with i := 0xFF0 }) = some .ok) ∧
    look (·.lastResult) (exec (.sknp 1) (two 1 16 0 0)) = some (.fault (.keyIndexOutOfRange 16)) ∧
    look (·.lastResult) (exec (.sknp 1) (two 1 15 0 0)) = some .ok := by
  decide

/-- The invariant holds, and a Step answers, at the ends of its ranges: SP = 15, a return address 0x1000, PC = 0xFFE. -/
theorem witness_EveryStepKeepsTheInvariant :
    ({ lastWord with sp := 15, stack := State.reset.stack.set 15 0x1000, brk := [0, 0xFFFF] } : State).Inv ∧
    ∃ t, step { lastWord with sp := 15, stack := State.reset.stack.set 15 0x1000, brk := [0, 0xFFFF] } = .next t :=
  ⟨⟨by decide, by decide, by decide, by decide, by decide⟩, _, rfl⟩

theorem witness_NoSequenceOfOperationsStops : State.construct.Inv :=
  ⟨by decide, by decide, by decide, by decide, by decide⟩

/-- A session with nothing loaded, the longest image that loads, and a sequence on either side of the contract. -/
theorem witness_BootContractIsEnforced :
    (Session.powerOn (Vector.replicate 80 0)).loaded = false ∧ (List.replicate 3584 (0 : Byte)).length ≤ 3584 ∧
    bootContract false [.tickDelayTimer, .loadRom [0x12, 0x00], .step] = true ∧
    bootContract false [.loadRom [0x12, 0x00], .construct (Vector.replicate 80 0), .step] = false :=
  ⟨by decide, by rw [List.length_replicate], by decide, by decide⟩

/-- The last word of memory that can be fetched is a jump to itself. -/
def selfLoop : State := { State.reset with pc := 0xFFE, mem := [(0xFFE, 0x1F), (0xFFF, 0xFE)] }

theorem witness_EndedRunStaysEnded :
    selfLoop.ended = true ∧ NoPause selfLoop ∧ HostOp.setKey 3 ≠ .step ∧ ∃ t, perform (.setKey 3) selfLoop = .next t :=
  ⟨by decide, by unfold NoPause; decide, by decide, _, rfl⟩

/-- A register that is written and not read (VF), and one that is neither (V3). -/
theorem witness_InstructionsReadAndWriteOnlyTheirRegisters :
    ∃ t, exec (.addReg 1 2) (two 1 0xC8 2 0x64) = .next t ∧ t.lastResult = .ok ∧
      (VF ∉ regReads (.addReg 1 2) ∧ VF ∈ regWrites (.addReg 1 2)) ∧
      ((3 : Reg) ∉ regReads (.addReg 1 2) ∧ (3 : Reg) ∉ regWrites (.addReg 1 2)) :=
  ⟨_, rfl, rfl, by decide, by decide⟩

theorem witness_OnlyTheNamedInstructionsWriteEachStore :
    look (fun t => decide (t.mem ≠ [])) (exec (.ldB 1) { two 1 255 0 0 with i := 0x300 }) = some true ∧
    look (fun t => decide (t.fb ≠ FrameBuffer.blank)) (exec (.drw 0 1 1) (at01 0 0 [0x80])) = some true ∧
    look (fun t => decide (t.stack ≠ State.reset.stack ∧ t.sp ≠ 0)) (exec (.call 0) State.reset) = some true ∧
    look (fun t => decide (t.i ≠ 0)) (exec (.ldF 1) (two 1 1 0 0)) = some true ∧
    look (fun t => decide (t.dt ≠ 0)) (exec (.ldDtVx 1) (two 1 1 0 0)) = some true ∧
    look (fun t => decide (t.st ≠ 0)) (exec (.ldStVx 1) (two 1 1 0 0)) = some true := by
  decide

theorem witness_FlagChangesOnlyByItsWriters :
    ∃ t, exec (.shl 1 2) (two 1 0x80 2 0) = .next t ∧ t.reg VF ≠ (two 1 0x80 2 0).reg VF :=
  ⟨_, rfl, by decide⟩

theorem witness_BreakpointsAreInvisibleToInstructions : ∃ t, exec .cls State.reset = .next t := ⟨_, rfl⟩

theorem witness_OnlyRandomTakesTheRandomByte :
    (∀ x kk, Instr.cls ≠ .rnd x kk) ∧ ∃ t, exec .cls State.reset = .next t :=
  ⟨(by intro x kk h; cases h), _, rfl⟩

/-- a = 4095, b = 0, in both roles. -/
theorem witness_ByteWriteChangesThatByteOnly :
    Memory.wf [(4095, 1)] = true ∧ 4095 < 4096 ∧ 0 < 4096 ∧ 0 ≠ 4095 := by decide

theorem witness_CanonicalMemoriesThatReadAlikeAreEqual :
    Memory.wf (Memory.write [] 4095 1) = true ∧ Memory.wf [(4095, 1)] = true ∧
    ∀ a < 4096, Memory.read (Memory.write [] 4095 1) a = Memory.read [(4095, 1)] a :=
  ⟨by decide, by decide, fun _ _ => rfl⟩

/-- LD [I],VF and LD B,Vx at the last place they fit. For each clause a p: the first and the last stored byte as the
high byte, as the low byte (p = 0xFEF and 0xFFC straddle the start), and p on either side of the range. -/
theorem witness_StoresAreSeenByTheNextFetch :
    Memory.wf State.reset.mem = true ∧
    look (·.lastResult) (exec (.storeRegs 15) { State.reset with i := 0xFF0 }) = some .ok ∧
    (0xFF0 = 0xFF0 + (0 : Reg).val ∧ 0xFFF = 0xFF0 + (15 : Reg).val ∧ 0xFEF + 1 = 0xFF0 + (0 : Reg).val ∧
      0xFFE + 1 = 0xFF0 + (15 : Reg).val ∧ 0xFEF < 0xFF0 ∧ 0xFF0 + (15 : Reg).val < 0x1000 ∧ 0xFEE + 1 < 0xFF0) ∧
    look (·.lastResult) (exec (.ldB 1) { State.reset with i := 0xFFD }) = some .ok ∧
    (∀ k : Fin 3, ∃ p : Word, p.toNat = 0xFFD + k.val) ∧ (∀ k : Fin 3, ∃ p : Word, p.toNat + 1 = 0xFFD + k.val) ∧
    0xFFC < 0xFFD ∧ 0xFFD + 2 < 0x1000 := by
  refine ⟨by decide, by decide, by decide, by decide, fun k => ⟨BitVec.ofNat 16 (0xFFD + k.val), ?_⟩,
    fun k => ⟨BitVec.ofNat 16 (0xFFC + k.val), ?_⟩, by decide, by decide⟩ <;> (revert k; decide)

theorem witness_CallPushesTheReturnAddress :
    ({ State.reset with sp := 14 } : State).sp.toNat < 15 ∧ 15 ≤ ({ State.reset with sp := 15 } : State).sp.toNat := by
  decide

/-- Each clause at a boundary: SP = 1, SP = 15, SP = 0, SP = 16. -/
theorem witness_ReturnPopsTheReturnAddress :
    ({ State.reset with sp := 1 } : State).sp.toNat = (1 : Fin 16).val ∧
    ({ State.reset with sp := 15 } : State).sp.toNat = (15 : Fin 16).val ∧ 0 < (1 : Fin 16).val ∧
    State.reset.sp.toNat = 0 ∧ 15 < ({ State.reset with sp := 16 } : State).sp.toNat := by
  decide

/-- The fifteenth call, and a later state of the subroutine. -/
theorem witness_ReturnAfterCallResumesAfterTheCall :
    ∃ t u : State, exec (.call 0x300) { State.reset with sp := 14 } = .next t ∧ t.lastResult = .ok ∧
      u.sp = t.sp ∧ u.stack = t.stack ∧ u.pc ≠ t.pc :=
  ⟨_, { State.reset with sp := 15, stack := State.reset.stack.set 15 0x200, pc := 0x310 }, rfl, rfl, by decide, by decide,
    by decide⟩

/-- AddSetsTheCarry, SubtractionsSetTheStrictFlag and ShiftsMoveTheLostBitToTheFlag: a destination that is not VF. -/
theorem witness_flag_clauses : (14 : Reg) ≠ VF := by decide

theorem witness_RandomIsMasked : BitVec.getLsbD (0x7F : Byte) 7 = false := by decide

theorem witness_DigitsAreStoredAtI :
    Memory.wf State.reset.mem = true ∧ ({ State.reset with i := 0xFFD } : State).i.toNat + 2 ≤ 0xFFF ∧
    0xFFF < ({ State.reset with i := 0xFFE } : State).i.toNat + 2 := by
  decide

/-- RegistersAreStoredAtI and RegistersAreLoadedFromI: the last range inside memory and the first outside. -/
theorem witness_RegistersAreStoredAndLoaded :
    Memory.wf State.reset.mem = true ∧
    ({ State.reset with i := 0xFF0 } : State).i.toNat + (15 : Reg).val ≤ 0xFFF ∧
    0xFFF < ({ State.reset with i := 0xFF1 } : State).i.toNat + (15 : Reg).val ∧ (15 : Reg) ≤ 15 := by
  decide

theorem witness_LoadAfterStoreRestoresTheRegisters :
    Memory.wf State.reset.mem = true ∧
    ∃ t, exec (.storeRegs 14) { two 0 9 14 7 with i := 0xFF1 } = .next t ∧ t.lastResult = .ok ∧ (14 : Reg) < 15 :=
  ⟨by decide, _, rfl, rfl, by decide⟩

/-- The clauses of DRW: the longest sprite at the last place it fits, none at all, and one byte too far; a covered cell
that is set, and a sprite with no cell set. -/
theorem witness_DrawTogglesTheCoveredCells :
    BytesInMemory { State.reset with i := 0xFF1 } 15 ∧ BytesInMemory { State.reset with i := 0xFFFF } 0 ∧
    ¬ BytesInMemory { State.reset with i := 0xFF2 } 15 ∧
    (Covered (at01 63 31 [0x80]) 63 31 1 63 31 ∧ (FrameBuffer.blank.toggle 63 31).pixel 63 31 = true) ∧
    ∀ cx cy, ¬ Covered (at01 63 31 [0x00]) 63 31 0 cx cy := by
  refine ⟨by unfold BytesInMemory; decide, by unfold BytesInMemory; decide, by unfold BytesInMemory; decide,
    ⟨⟨0, by decide, 0, by decide, by decide, by decide, by decide⟩, by decide⟩, ?_⟩
  rintro cx cy ⟨row, h, _⟩
  exact absurd h (by omega)

/-- The second draw from other registers, with the sprite at the end of memory. -/
theorem witness_SecondDrawRestoresTheBuffer :
    BytesInMemory { two 0 63 1 31 with i := 0xFF1 } 15 ∧
    ∃ t u : State, exec (.drw 0 1 15) { two 0 63 1 31 with i := 0xFF1 } = .next t ∧ u.fb = t.fb ∧ u.i = 0xFF1 ∧
      u.reg 7 = 63 ∧ u.reg VF = 31 ∧ ∀ row < 15, u.mem.read (0xFF1 + row) = Memory.read [] (0xFF1 + row) :=
  ⟨by unfold BytesInMemory; decide, _, { two 7 63 15 31 with i := 0xFF1 }, rfl, by decide, by decide, by decide,
    by decide, fun _ _ => rfl⟩

theorem witness_KeySkipsReadTheKeyLevel :
    ((two 1 15 0 0).reg 1).toNat = (15 : Fin 16).val ∧ 15 < ((two 1 16 0 0).reg 1).toNat := by decide

/-- The least pressed key is the last one, and no key is pressed while the word at PC is LD V0,K. -/
theorem witness_WaitForKeyPollsAndRetries :
    ((keysDown [15]).key[15] = true ∧ ∀ j : Fin 16, j < 15 → (keysDown [15]).key[j.val] = false) ∧
    (∀ k : Fin 16, (State.reset.withFetchWord 16 0xF00A).key[k.val] = false) ∧
    NoPause (State.reset.withFetchWord 16 0xF00A) ∧ (State.reset.withFetchWord 16 0xF00A).pc.toNat ≤ 0xFFE ∧
    FetchedWord (State.reset.withFetchWord 16 0xF00A) 0xF00A ∧ decode 0xF00A = .ok (.ldVxK 0) :=
  ⟨by decide, by decide, by unfold NoPause; decide, by decide, by unfold FetchedWord; decide, rfl⟩

/-- k = 15 for the first clause, k = 16 for the second. -/
theorem witness_KeyEventsSetOneLevel : (∃ k, k < 16 ∧ k = 15) ∧ ∃ k, 15 < k ∧ k = 16 :=
  ⟨⟨15, by decide, rfl⟩, 16, by decide, rfl⟩

theorem witness_SetBreakChangesOneAddress : risingAddrs used.brk = true ∧ risingAddrs [0, 0xFFFF] = true := by decide

/-- The longest image that fits and the shortest that does not. -/
theorem witness_LoadRomResetsAndLoads :
    Memory.wf used.mem = true ∧ (List.replicate 3584 (0 : Byte)).length ≤ 3584 ∧
    3584 < (List.replicate 3585 (0 : Byte)).length :=
  ⟨by decide, by rw [List.length_replicate], by rw [List.length_replicate]; decide⟩

theorem witness_LaunchFetchesTheImagesFirstWord :
    (List.replicate 3582 (0 : Byte)).length ≤ 3582 ∧
    decode (BitVec.ofNat 16 ((0x12 : Byte).toNat * 256 + (0x00 : Byte).toNat)) = .ok (.jp 0x200) :=
  ⟨by rw [List.length_replicate], rfl⟩

/-- The last cell. -/
theorem witness_SnapshotsShowTheState : 63 < 64 ∧ 31 < 32 := by decide

/-- The last word of memory, a PC that cannot be fetched at, and a breakpoint that would pause. -/
theorem witness_PlacedWordIsTheNextOneRun :
    Memory.wf lastWord.mem = true ∧ 0x1234 < 65536 ∧ decodeTableWord 16 0x1234 = some (.jp 0x234) ∧
    decodeTableWord 16 65535 = none ∧ NoPause { lastWord with pc := (lastWord.withFetchWord 16 0x1234).pc } ∧
    (({ State.reset with pc := 0xFFF, brk := [0x200] } : State).withFetchWord 16 0x1234).pc = 0x200 ∧
    ¬ NoPause { State.reset with pc := 0x200, brk := [0x200] } :=
  ⟨by decide, by decide, by decide, by decide, by unfold NoPause; decide, by decide, by unfold NoPause; decide⟩

end Tests
end Machine
end Sys2Proof
end

/-! SUPPORT. Spec lemmas of the operations the statements of 10_state.md speak of: RET and CALL, the range check,
LD Vx,[I] and how register writes meet. -/

namespace Sys2Proof
namespace Machine

section
variable {s t u : State} {x r : Reg} {b : Byte}

/-! ### RET, CALL and the range check -/

theorem execRet_of_zero (h0 : s.sp = 0) : execRet s = .next { s with lastResult := .fault .stackUnderflow } := by
  rw [execRet, if_pos h0, raise_eq]

theorem execRet_of_pos (h0 : s.sp ≠ 0) (h16 : s.sp.toNat < 16) :
    execRet s = .next { s with pc := s.stack[s.sp.toNat], sp := s.sp - 1, lastResult := .ok } := by
  rw [execRet, if_neg h0, dif_pos h16, done_eq]

theorem execRet_of_ge (h16 : 16 ≤ s.sp.toNat) : execRet s = .fault .stackPointerOutOfRange := by
  have h0 : s.sp ≠ 0 := by bv_omega
  rw [execRet, if_neg h0, dif_neg (Nat.not_lt.2 h16)]

theorem execCall_of_lt {nnn : Addr12} (h15 : s.sp.toNat < 15) :
    execCall nnn s =
      .next { s with
        sp := s.sp + 1
        stack := s.stack.set (s.sp.toNat + 1) s.pc (Nat.succ_lt_succ h15)
        pc := addrOf nnn
        lastResult := .ok } := by
  rw [execCall, dif_pos h15, done_eq]

theorem execCall_of_ge {nnn : Addr12} (h15 : 15 ≤ s.sp.toNat) :
    execCall nnn s = .next { s with lastResult := .fault (.stackOverflow s.sp) } := by
  rw [execCall, dif_neg (Nat.not_lt.2 h15), raise_eq]

/-- A range-checked instruction either fits and is done, or faults with nothing changed (20_memory.md R46). -/
theorem checkRange_done_eq_next {k : Nat} (h : checkRange k s (done u) = .next t) :
    (k = 0 ∨ s.i.toNat + k - 1 ≤ 0xFFF) ∧ t = { u with lastResult := .ok } ∨
    t = { s with lastResult := .fault (.memOutOfRange s.i k) } := by
  rw [checkRange_eq, done_eq] at h
  split at h
  · cases h
    exact .inl ⟨‹_›, rfl⟩
  · cases h
    exact .inr rfl

/-! ### Register writes -/

theorem State.setReg_setReg_self (c : Byte) : (s.setReg x b).setReg x c = s.setReg x c := by
  simp [setReg]

theorem State.setReg_comm (hx : x ≠ r) (c : Byte) : (s.setReg r b).setReg x c = (s.setReg x c).setReg r b := by
  simp only [setReg]
  rw [Vector.set_comm _ _ (Fin.val_ne_of_ne hx.symm)]

theorem State.skipIf_setReg (c : Bool) : (s.setReg r b).skipIf c = (s.skipIf c).setReg r b := by
  cases c <;> rfl

theorem State.firstRegs_setReg {k : Nat} (hk : k ≤ r.val) : (s.setReg r b).firstRegs k = s.firstRegs k := by
  rw [firstRegs, setReg, Vector.toList_set, List.take_set_of_le hk, firstRegs]

theorem mem_regsUpTo : r ∈ regsUpTo x ↔ r ≤ x := by simp [regsUpTo]

/-- The registers after LD Vx,[I] whose range fits: V0 to Vx loaded from I on (43_index_memory.md R135). -/
def State.loadedRegs (s : State) (x : Reg) : Vector Byte 16 :=
  Vector.ofFn fun j => if j ≤ x then s.mem.read (s.i.toNat + j.val) else s.reg j

theorem execLoadRegs_eq : execLoadRegs x s = checkRange (regCount x) s (done { s with v := s.loadedRegs x }) := rfl

theorem State.getElem_loadedRegs :
    (s.loadedRegs x)[r.val] = if r ≤ x then s.mem.read (s.i.toNat + r.val) else s.reg r :=
  Vector.getElem_ofFn _

/-- LD Vx,[I] after a change of `r`: the load overwrites `r` up to x and keeps the changed `r` above x. -/
theorem State.loadedRegs_setReg :
    (s.setReg r b).loadedRegs x = if r ≤ x then s.loadedRegs x else (s.loadedRegs x).set r.val b := by
  apply Vector.ext
  intro k hk
  obtain ⟨j, rfl⟩ : ∃ j : Reg, j.val = k := ⟨⟨k, hk⟩, rfl⟩
  rw [getElem_loadedRegs, reg_setReg, mem_setReg, i_setReg]
  by_cases hrx : r ≤ x
  · rw [if_pos hrx, getElem_loadedRegs]
    split
    · rfl
    · exact if_neg (by rintro rfl; contradiction)
  · rw [if_neg hrx, Vector.getElem_set, getElem_loadedRegs]
    by_cases hj : j = r
    · rw [hj, if_neg hrx, if_pos rfl, if_pos rfl]
    · rw [if_neg hj, if_neg (Fin.val_ne_of_ne (Ne.symm hj))]

end

end Machine
end Sys2Proof

/-! SUPPORT. What an instruction can do to a state, said once, as `exec_result` says which results it can return. -/

namespace Sys2Proof
namespace Machine

/-- What instruction `i` can make of the state `s`: one constructor per shape of next state, each saying which fields
change, for which instructions, and what bounds the new values. `effect_of_exec` ties it to `exec`. -/
inductive Effect (s : State) : Instr → State → Prop
  /-- A bound check failed: nothing changes (60_exceptions.md R163). -/
  | fault (i : Instr) (kind : FaultKind) : Effect s i { s with lastResult := .fault kind }
  /-- LD Vx,K with no key pressed: PC goes back (45_keypad_timers.md R153). -/
  | wait (x : Reg) : Effect s (.ldVxK x) { s with pc := s.pc - 2, lastResult := .waitingForKey }
  /-- Registers change, inside the write set of R13, and RND counts its byte. -/
  | regs (i : Instr) (v : Vector Byte 16) (draws : Nat) (hv : ∀ r ∉ regWrites i, v[r.val] = s.reg r) :
      Effect s i { s with v := v, draws := draws, lastResult := .ok }
  /-- A conditional skip (41_flow.md R100). -/
  | skip (i : Instr) (c : Bool) : Effect s i { s.skipIf c with lastResult := .ok }
  /-- A jump; the farthest target is that of JP V0 (10_state.md R17). -/
  | jump (i : Instr) (pc : Word) (hpc : pc.toNat ≤ 0x10FE) : Effect s i { s with pc := pc, lastResult := .ok }
  /-- RET pops (41_flow.md R101). -/
  | ret (h0 : s.sp ≠ 0) (h16 : s.sp.toNat < 16) :
      Effect s .ret { s with pc := s.stack[s.sp.toNat], sp := s.sp - 1, lastResult := .ok }
  /-- CALL pushes PC (41_flow.md R103). -/
  | call (nnn : Addr12) (h15 : s.sp.toNat < 15) :
      Effect s (.call nnn)
        { s with
          sp := s.sp + 1
          stack := s.stack.set (s.sp.toNat + 1) s.pc (Nat.succ_lt_succ h15)
          pc := addrOf nnn
          lastResult := .ok }
  /-- I changes (10_state.md R14). -/
  | index (i : Instr) (w : Word) (hi : (∃ nnn, i = .ldI nnn) ∨ ∃ x, i = .addI x ∨ i = .ldF x) :
      Effect s i { s with i := w, lastResult := .ok }
  | delay (x : Reg) : Effect s (.ldDtVx x) { s with dt := s.reg x, lastResult := .ok }
  | sound (x : Reg) : Effect s (.ldStVx x) { s with st := s.reg x, lastResult := .ok }
  /-- Bytes are stored from I on, all of them inside memory (20_memory.md R46). -/
  | store (i : Instr) (bytes : List Byte) (hi : ∃ x, i = .ldB x ∨ i = .storeRegs x)
      (hr : s.i.toNat + bytes.length ≤ Config.memSize) :
      Effect s i { s with mem := s.mem.writeBytes s.i.toNat bytes, lastResult := .ok }
  | clear : Effect s .cls { s with fb := FrameBuffer.blank, lastResult := .ok }
  /-- DRW draws and writes VF (44_display.md R146). -/
  | draw (x y : Reg) (n : Nibble) (fb : FrameBuffer) (flag : Byte) :
      Effect s (.drw x y n) { { s with fb := fb }.setReg VF flag with lastResult := .ok }

section
variable {i : Instr} {s t : State} {x : Reg} {b f : Byte}

/-- A key skip is a skip on some condition, or a fault. -/
theorem effect_of_skipOnKey {wanted : Bool} (h : skipOnKey x s wanted = .next t) : Effect s i t := by
  rw [skipOnKey] at h
  split at h
  · cases h
    exact .skip i _
  · cases h
    exact .fault i _

theorem effect_setReg (hx : x ∈ regWrites i) : Effect s i { s.setReg x b with lastResult := .ok } :=
  .regs i (s.setReg x b).v s.draws fun _ hr => s.reg_setReg_of_ne x _ b fun e => hr (e ▸ hx)

theorem effect_setFlagAndReg (hw : regWrites i = [VF, x]) :
    Effect s i { s.setFlagAndReg x f b with lastResult := .ok } := by
  refine .regs i (s.setFlagAndReg x f b).v s.draws fun r hr => ?_
  obtain ⟨hf, hx⟩ : r ≠ VF ∧ r ≠ x := by simpa [hw] using hr
  exact (s.reg_setFlagAndReg x r b f).trans (by rw [if_neg hx, if_neg hf])

/-- JP V0 jumps at most to 0xFF + 0xFFF (R17). -/
theorem toNat_jpV0_target_le (v : Byte) (nnn : Addr12) :
    ((v.setWidth 16 &&& 0xFFF) + addrOf nnn : Word).toNat ≤ 0x10FE := by
  have hv : (v.setWidth 16 &&& 0xFFF : Word).toNat ≤ 0xFF := by
    rw [BitVec.toNat_and]
    exact Nat.and_le_left.trans (by rw [BitVec.toNat_setWidth]; omega)
  rw [BitVec.toNat_add, toNat_addrOf]
  omega

/-- Every next state an instruction answers has one of the shapes of `Effect`. -/
theorem effect_of_exec (h : exec i s = .next t) : Effect s i t := by
  cases i with
  | cls => cases h; exact .clear
  | ret =>
    rw [exec, execRet] at h
    split at h
    · cases h; exact .fault _ _
    · split at h
      · cases h; exact .ret ‹_› ‹_›
      · cases h
  | jp nnn => cases h; exact .jump _ _ (by rw [toNat_addrOf]; omega)
  | call nnn =>
    rw [exec, execCall] at h
    split at h
    · cases h; exact .call nnn ‹_›
    · cases h; exact .fault _ _
  | seImm | sneImm | seReg | sneReg => cases h; exact .skip _ _
  | ldImm x | addImm x | ldReg x | orReg x | andReg x | xorReg x | ldVxDt x =>
    cases h; exact effect_setReg (x := x) (List.mem_singleton_self x)
  | addReg x | sub x | subn x | shr x | shl x => cases h; exact effect_setFlagAndReg (x := x) rfl
  | ldI nnn => cases h; exact .index _ _ (.inl ⟨nnn, rfl⟩)
  | jpV0 nnn => cases h; exact .jump _ _ (toNat_jpV0_target_le _ nnn)
  | rnd x kk =>
    cases h
    exact .regs _ (s.setReg x _).v (s.draws + 1) fun r hr =>
      s.reg_setReg_of_ne x r _ fun e => hr (e ▸ List.mem_singleton_self x)
  | drw x y n =>
    obtain ⟨-, rfl⟩ | rfl := checkRange_done_eq_next h
    · exact .draw x y n _ _
    · exact .fault _ _
  | skp x | sknp x => exact effect_of_skipOnKey h
  | ldVxK x =>
    rw [exec, execLdVxK] at h
    split at h
    · cases h; exact effect_setReg (x := x) (List.mem_singleton_self x)
    · cases h; exact .wait x
  | ldDtVx x => cases h; exact .delay x
  | ldStVx x => cases h; exact .sound x
  | addI x => cases h; exact .index _ _ (.inr ⟨x, .inl rfl⟩)
  | ldF x => cases h; exact .index _ _ (.inr ⟨x, .inr rfl⟩)
  | ldB x =>
    obtain ⟨hr, rfl⟩ | rfl := checkRange_done_eq_next h
    · exact .store _ _ ⟨x, .inl rfl⟩ (by rw [length_digits, Config.memSize]; omega)
    · exact .fault _ _
  | storeRegs x =>
    obtain ⟨hr, rfl⟩ | rfl := checkRange_done_eq_next h
    · refine .store _ _ ⟨x, .inr rfl⟩ ?_
      rw [length_firstRegs s (show regCount x ≤ 16 from x.isLt), Config.memSize]
      rw [regCount] at hr ⊢
      omega
    · exact .fault _ _
  | loadRegs x =>
    rw [exec, execLoadRegs_eq] at h
    obtain ⟨-, rfl⟩ | rfl := checkRange_done_eq_next h
    · exact .regs _ (s.loadedRegs x) s.draws fun r hr =>
        State.getElem_loadedRegs.trans (if_neg fun hrx => hr (mem_regsUpTo.2 hrx))
    · exact .fault _ _

end

end Machine
end Sys2Proof

/-! SUPPORT. The invariant (10_state.md R17, R18): kept by every instruction and so by every Step, and met at reset. -/

namespace Sys2Proof
namespace Machine

section
variable {i : Instr} {s t : State}

/-- An instruction run on a PC that a fetch has advanced keeps the invariant. -/
theorem Effect.inv (h : Effect s i t) (hs : s.Inv) (hlo : 2 ≤ s.pc.toNat) (hhi : s.pc.toNat ≤ 0x1000) : t.Inv := by
  obtain ⟨hmem, hsp, hpc, hstack, hbrk⟩ := hs
  cases h with
  | fault | regs | index | delay | sound | clear | draw => exact ⟨hmem, hsp, hpc, hstack, hbrk⟩
  | wait => exact ⟨hmem, hsp, show (s.pc - 2).toNat ≤ 0x10FE by bv_omega, hstack, hbrk⟩
  | skip _ c =>
    have hskip : (s.skipIf c).pc.toNat ≤ 0x10FE := by
      rw [State.pc_skipIf]
      split
      · bv_omega
      · exact hpc
    exact ⟨by simpa using hmem, by simpa using hsp, hskip, by simpa using hstack, by simpa using hbrk⟩
  | jump _ _ hjump => exact ⟨hmem, hsp, hjump, hstack, hbrk⟩
  | ret h0 h16 =>
    have hsp' : (s.sp - 1).toNat ≤ 15 := by bv_omega
    exact ⟨hmem, hsp', (hstack ⟨s.sp.toNat, h16⟩).trans (by decide), hstack, hbrk⟩
  | call nnn h15 =>
    have hsp' : (s.sp + 1).toNat ≤ 15 := by bv_omega
    have hpc' : (addrOf nnn).toNat ≤ 0x10FE := by rw [toNat_addrOf]; omega
    refine ⟨hmem, hsp', hpc', fun k => ?_, hbrk⟩
    simp only [Vector.getElem_set]
    split
    · exact hhi
    · exact hstack k
  | store _ _ _ hr => exact ⟨Memory.wf_writeBytes hmem hr, hsp, hpc, hstack, hbrk⟩

/-- The advance after a fetch keeps the invariant and leaves PC from 2 to 0x1000. -/
theorem State.Inv.advance (hs : s.Inv) (hf : s.fetchable = true) :
    s.advance.Inv ∧ 2 ≤ s.advance.pc.toNat ∧ s.advance.pc.toNat ≤ 0x1000 := by
  rw [State.fetchable_iff] at hf
  obtain ⟨hmem, hsp, -, hstack, hbrk⟩ := hs
  have hpc : s.advance.pc.toNat = s.pc.toNat + 2 := by rw [State.pc_advance]; bv_omega
  exact ⟨⟨hmem, hsp, by omega, hstack, hbrk⟩, by omega, by omega⟩

end

/-- Settles O13: a Step pauses, reports or runs an instruction, and each of these keeps the invariant. -/
theorem everyStepKeepsTheInvariant : Obligations.EveryStepKeepsTheInvariant := by
  intro s t hs h
  obtain ⟨-, he⟩ | ⟨-, -, he⟩ | ⟨-, hf, -, he⟩ | ⟨-, hf, i, -, he⟩ := step_cases s <;> rw [he] at h
  · cases h
    exact ⟨hs.mem, hs.sp, hs.pc, hs.stack, hs.brk⟩
  · cases h
    exact ⟨hs.mem, hs.sp, hs.pc, hs.stack, hs.brk⟩
  · cases h
    obtain ⟨ha, -, -⟩ := hs.advance hf
    exact ⟨ha.mem, ha.sp, ha.pc, ha.stack, ha.brk⟩
  · obtain ⟨ha, hlo, hhi⟩ := hs.advance hf
    exact (effect_of_exec h).inv ha hlo hhi

/-- Settles O14: every field is at its power-on value, and installing a font of 80 bytes keeps memory canonical. -/
theorem resetMeetsTheInvariant : Obligations.ResetMeetsTheInvariant := by
  have hreset : State.reset.Inv := ⟨rfl, by decide, by decide, by decide, rfl⟩
  have hfont (font : Vector Byte 80) : (State.constructWith font).mem.wf = true :=
    Memory.wf_writeBytes Memory.wf_nil (by rw [Vector.length_toList]; decide)
  exact ⟨hreset, fun font => ⟨hfont font, hreset.sp, Nat.zero_le _, hreset.stack, rfl⟩⟩

end Machine
end Sys2Proof

/-! SUPPORT. Which instruction writes which store and which register, and which registers it reads (10_state.md R12 to
R28). -/

namespace Sys2Proof
namespace Machine

/-- Settles O17: each shape of next state names the stores it changes and the instructions it belongs to. -/
theorem onlyTheNamedInstructionsWriteEachStore : Obligations.OnlyTheNamedInstructionsWriteEachStore := by
  intro i s t h
  cases effect_of_exec h with
  | fault | wait | regs | skip | jump | ret | call | delay | sound | clear | draw => simp
  | index _ _ hi | store _ _ hi => simp [hi]

section
variable {i : Instr} {s t u : State} {x r : Reg} {b : Byte}

/-- A register outside the write set keeps its value. -/
theorem Effect.sameRegsBut (h : Effect s i t) : SameRegsBut (regWrites i) s t := by
  intro r hr
  cases h with
  | regs _ v _ hv => exact hv r hr
  | skip _ c => exact State.reg_skipIf s r c
  | draw x y n fb flag =>
    exact State.reg_setReg_of_ne _ VF r flag fun e => hr (e ▸ List.mem_singleton_self VF)
  | _ => rfl

/-- What an instruction that left `t` leaves instead when a register `r` that it does not read holds `b`: the same state
where it overwrites `r`, else the same state with `b` still in `r` (`exec_setReg`). -/
def State.withUnread (t : State) (i : Instr) (r : Reg) (b : Byte) : State :=
  if r ∈ regWrites i ∧ t.lastResult = .ok then t else t.setReg r b

theorem State.withUnread_of_notMem (hr : r ∉ regWrites i) : t.withUnread i r b = t.setReg r b :=
  if_neg fun h => hr h.1

theorem State.withUnread_of_not_ok (ht : t.lastResult ≠ .ok) : t.withUnread i r b = t.setReg r b :=
  if_neg fun h => ht h.2

theorem State.withUnread_of_mem (hr : r ∈ regWrites i) (ht : t.lastResult = .ok) : t.withUnread i r b = t :=
  if_pos ⟨hr, ht⟩

/-! ### The shared operations after a change of a register -/

/-- A register write after a change of `r` hides the change where it hits `r` and commutes with it elsewhere. -/
theorem State.setReg_setReg_eq_withUnread (hw : regWrites i = [x]) (c : Byte) (d : Nat) :
    { (s.setReg r b).setReg x c with draws := d, lastResult := .ok } =
      State.withUnread { s.setReg x c with draws := d, lastResult := .ok } i r b := by
  by_cases hx : x = r
  · subst hx
    rw [setReg_setReg_self, withUnread_of_mem (by simp [hw]) rfl]
  · rw [setReg_comm hx, withUnread_of_notMem (by simp [hw, Ne.symm hx])]
    rfl

theorem State.setFlagAndReg_setReg_eq_withUnread (hw : regWrites i = [VF, x]) (f c : Byte) :
    { (s.setReg r b).setFlagAndReg x f c with lastResult := .ok } =
      State.withUnread { s.setFlagAndReg x f c with lastResult := .ok } i r b := by
  rw [setFlagAndReg, setFlagAndReg]
  by_cases hf : VF = r
  · subst hf
    rw [setReg_setReg_self, withUnread_of_mem (by simp [hw]) rfl]
  by_cases hx : x = r
  · subst hx
    rw [setReg_comm hf, setReg_setReg_self, withUnread_of_mem (by simp [hw]) rfl]
  · rw [setReg_comm hf, setReg_comm hx, withUnread_of_notMem (by simp [hw, Ne.symm hx, Ne.symm hf])]
    rfl

theorem State.loadedRegs_setReg_eq_withUnread :
    { s.setReg r b with v := (s.setReg r b).loadedRegs x, lastResult := .ok } =
      State.withUnread { s with v := s.loadedRegs x, lastResult := .ok } (.loadRegs x) r b := by
  rw [loadedRegs_setReg]
  by_cases hrx : r ≤ x
  · rw [if_pos hrx, withUnread_of_mem (mem_regsUpTo.2 hrx) rfl]
    rfl
  · rw [if_neg hrx, withUnread_of_notMem fun h => hrx (mem_regsUpTo.1 h)]
    rfl

/-- A range-checked instruction that is done with `u` is done with `u'` after a change of `r`. -/
theorem checkRange_setReg {k : Nat} {u' : State}
    (hu : { u' with lastResult := .ok } = State.withUnread { u with lastResult := .ok } i r b)
    (h : checkRange k s (done u) = .next t) :
    checkRange k (s.setReg r b) (done u') = .next (t.withUnread i r b) := by
  rw [checkRange_eq, done_eq] at h ⊢
  split at h
  · cases h
    rw [if_pos ‹_›, hu]
  · cases h
    rw [if_neg ‹_›, State.withUnread_of_not_ok (by simp)]
    rfl

theorem skipOnKey_setReg {wanted : Bool} (hx : (s.setReg r b).reg x = s.reg x) (hr : r ∉ regWrites i)
    (h : skipOnKey x s wanted = .next t) : skipOnKey x (s.setReg r b) wanted = .next (t.withUnread i r b) := by
  rw [State.withUnread_of_notMem hr]
  by_cases hk : (s.reg x).toNat < 16
  · rw [skipOnKey_of_lt hk] at h
    cases h
    simp only [skipOnKey, hx, hk, dite_true, State.skipIf_setReg]
    rfl
  · rw [skipOnKey_of_ge (by omega)] at h
    cases h
    simp only [skipOnKey, hx, hk, dite_false]
    rfl

theorem execRet_setReg (h : execRet s = .next t) : execRet (s.setReg r b) = .next (t.setReg r b) := by
  by_cases h0 : s.sp = 0
  · rw [execRet_of_zero h0] at h
    cases h
    exact execRet_of_zero (s := s.setReg r b) h0
  by_cases h16 : s.sp.toNat < 16
  · rw [execRet_of_pos h0 h16] at h
    cases h
    exact execRet_of_pos (s := s.setReg r b) h0 h16
  · rw [execRet_of_ge (Nat.not_lt.1 h16)] at h
    cases h

theorem execCall_setReg {nnn : Addr12} (h : execCall nnn s = .next t) :
    execCall nnn (s.setReg r b) = .next (t.setReg r b) := by
  by_cases h15 : s.sp.toNat < 15
  · rw [execCall_of_lt h15] at h
    cases h
    exact execCall_of_lt (s := s.setReg r b) h15
  · rw [execCall_of_ge (Nat.not_lt.1 h15)] at h
    cases h
    exact execCall_of_ge (s := s.setReg r b) (Nat.not_lt.1 h15)

theorem execLdVxK_setReg (h : execLdVxK x s = .next t) :
    execLdVxK x (s.setReg r b) = .next (t.withUnread (.ldVxK x) r b) := by
  have hk : (s.setReg r b).leastKey = s.leastKey := rfl
  rw [execLdVxK] at h ⊢
  rw [hk]
  cases hleast : s.leastKey with
  | some k =>
    rw [hleast] at h
    cases h
    exact congrArg _ (State.setReg_setReg_eq_withUnread rfl _ _)
  | none =>
    rw [hleast] at h
    cases h
    rw [State.withUnread_of_not_ok (by simp)]
    rfl

/-! ### Every instruction after a change of a register it does not read -/

/-- An instruction gives the same state but for `r` when another value is put in a register `r` outside its read set:
the registers it reads are as before, and the shared operation it ends in says what becomes of `r`. -/
theorem exec_setReg (hr : r ∉ regReads i) (h : exec i s = .next t) :
    exec i (s.setReg r b) = .next (t.withUnread i r b) := by
  have hread : ∀ x ∈ regReads i, (s.setReg r b).reg x = s.reg x := fun x hx =>
    s.reg_setReg_of_ne r x b fun e => hr (e ▸ hx)
  cases i with
  | cls | jp | ldI => cases h; rfl
  | ret =>
    rw [State.withUnread_of_notMem List.not_mem_nil]
    exact execRet_setReg h
  | call nnn =>
    rw [State.withUnread_of_notMem List.not_mem_nil]
    exact execCall_setReg h
  | seImm x kk | sneImm x kk =>
    cases h
    have hx := hread x (by simp [regReads])
    simp only [exec, execSeImm, execSneImm, hx, State.skipIf_setReg]
    rfl
  | seReg x y | sneReg x y =>
    cases h
    have hx := hread x (by simp [regReads])
    have hy := hread y (by simp [regReads])
    simp only [exec, execSeReg, execSneReg, hx, hy, State.skipIf_setReg]
    rfl
  | skp x | sknp x => exact skipOnKey_setReg (hread x (by simp [regReads])) List.not_mem_nil h
  | jpV0 nnn =>
    cases h
    rw [exec, execJpV0, hread 0 (by simp [regReads])]
    rfl
  | ldDtVx x | ldStVx x | addI x | ldF x =>
    cases h
    have hx := hread x (by simp [regReads])
    simp only [exec, execLdDtVx, execLdStVx, execAddI, execLdF, hx]
    rfl
  | ldImm x kk | rnd x kk | ldVxDt x =>
    cases h
    exact congrArg _ (State.setReg_setReg_eq_withUnread rfl _ _)
  | addImm x kk =>
    cases h
    rw [exec, execAddImm, hread x (by simp [regReads])]
    exact congrArg _ (State.setReg_setReg_eq_withUnread rfl _ _)
  | ldReg x y =>
    cases h
    rw [exec, execLdReg, hread y (by simp [regReads])]
    exact congrArg _ (State.setReg_setReg_eq_withUnread rfl _ _)
  | orReg x y | andReg x y | xorReg x y =>
    cases h
    have hx := hread x (by simp [regReads])
    have hy := hread y (by simp [regReads])
    simp only [exec, execOrReg, execAndReg, execXorReg, hx, hy]
    exact congrArg _ (State.setReg_setReg_eq_withUnread rfl _ _)
  | addReg x y | sub x y | subn x y =>
    cases h
    have hx := hread x (by simp [regReads])
    have hy := hread y (by simp [regReads])
    simp only [exec, execAddReg, execSub, execSubn, hx, hy]
    exact congrArg _ (State.setFlagAndReg_setReg_eq_withUnread rfl _ _)
  | shr x y | shl x y =>
    cases h
    have hx := hread x (by simp [regReads])
    simp only [exec, execShr, execShl, hx]
    exact congrArg _ (State.setFlagAndReg_setReg_eq_withUnread rfl _ _)
  | ldVxK x => exact execLdVxK_setReg h
  | drw x y n =>
    rw [exec, execDrw] at h ⊢
    simp only [hread x (by simp [regReads]), hread y (by simp [regReads]), State.fb_setReg, State.mem_setReg,
      State.i_setReg]
    generalize s.fb.drawSprite _ _ _ = d at h ⊢
    exact checkRange_setReg (State.setReg_setReg_eq_withUnread (s := { s with fb := d.fb }) rfl _ s.draws) h
  | ldB x =>
    rw [exec, execLdB] at h ⊢
    rw [hread x (by simp [regReads])]
    exact checkRange_setReg rfl h
  | storeRegs x =>
    have hxr : regCount x ≤ r.val := not_le.1 fun hrx => hr (mem_regsUpTo.2 hrx)
    rw [exec, execStoreRegs] at h ⊢
    rw [State.firstRegs_setReg hxr]
    exact checkRange_setReg rfl h
  | loadRegs x =>
    rw [exec, execLoadRegs_eq] at h ⊢
    refine checkRange_setReg ?_ h
    exact State.loadedRegs_setReg_eq_withUnread (s := s) (x := x) (r := r) (b := b)

end

/-- Settles O16: the write set is read off the shape of the next state, the read set off `exec_setReg`. -/
theorem instructionsReadAndWriteOnlyTheirRegisters : Obligations.InstructionsReadAndWriteOnlyTheirRegisters := by
  intro i s t h
  refine ⟨(effect_of_exec h).sameRegsBut, fun r b hr => ⟨_, exec_setReg hr h, ?_⟩⟩
  by_cases hw : r ∈ regWrites i ∧ t.lastResult = .ok
  · rw [State.withUnread, if_pos hw]
    exact ⟨fun _ _ => rfl, rfl, fun hn => absurd hw.1 hn, fun _ _ => rfl⟩
  · rw [State.withUnread, if_neg hw]
    exact ⟨fun j hj => t.reg_setReg_of_ne r j b (by simpa using hj), rfl, fun _ => t.reg_setReg_self r b,
      fun hmem hok => absurd ⟨hmem, hok⟩ hw⟩

/-- Settles O18: an instruction that changes VF has it in its write set. -/
theorem flagChangesOnlyByItsWriters : Obligations.FlagChangesOnlyByItsWriters := by
  intro i s t h hne
  have hw : VF ∈ regWrites i := by
    by_contra hw
    exact hne ((effect_of_exec h).sameRegsBut VF hw)
  cases i with
  | addReg x y | sub x y | subn x y | shr x y | shl x y => exact .inl ⟨x, y, by simp⟩
  | drw x y n => exact .inr (.inl ⟨x, y, n, rfl⟩)
  | ldImm x kk | addImm x kk | rnd x kk =>
    obtain rfl : VF = x := List.mem_singleton.1 hw
    exact .inr (.inr (.inl ⟨kk, 0, by simp⟩))
  | ldReg x y | orReg x y | andReg x y | xorReg x y =>
    obtain rfl : VF = x := List.mem_singleton.1 hw
    exact .inr (.inr (.inl ⟨0, y, by simp⟩))
  | ldVxDt x | ldVxK x =>
    obtain rfl : VF = x := List.mem_singleton.1 hw
    simp
  | loadRegs x =>
    obtain rfl : VF = x := (mem_regsUpTo.1 hw).antisymm (Fin.le_last x)
    simp
  | _ => cases hw

/-- Settles O27: the RET pops the entry that the CALL pushed, and every lower entry is as it was. -/
theorem returnAfterCallResumesAfterTheCall : Obligations.ReturnAfterCallResumesAfterTheCall := by
  intro nnn s t u h hok hsp hstack
  rw [exec] at h
  by_cases h15 : s.sp.toNat < 15
  · rw [execCall_of_lt h15] at h
    cases h
    have hsp' : u.sp.toNat = s.sp.toNat + 1 := by simp only at hsp; bv_omega
    refine ⟨_, execRet_of_pos (by bv_omega) (by omega), rfl, ?_, ?_, fun k hk => ?_⟩
    · simp [hsp', hstack]
    · simp only [hsp]; bv_omega
    · simp only [hstack]
      exact Vector.getElem_set_ne _ _ (by omega)
  · rw [execCall_of_ge (Nat.not_lt.1 h15)] at h
    cases h
    cases hok

end Machine
end Sys2Proof

/-! SUPPORT. Memory as data (20_memory.md R40): the canonical form of a memory is unique. -/

namespace Sys2Proof
namespace Machine
namespace Memory

section
variable {m m' : Memory} {lo a : Nat} {v : Byte}

/-- The first listed byte of a canonical memory reads differently in one that lists only higher addresses. -/
theorem read_ne_of_head (h : wfFrom lo ((a, v) :: m) = true) (h' : wfFrom (a + 1) m' = true) :
    read ((a, v) :: m) a ≠ read m' a := by
  obtain ⟨-, -, hv, -⟩ := wfFrom_cons.1 h
  rw [read_below h' (Nat.lt_succ_self a), read, if_pos rfl]
  exact hv

/-- By induction along both lists: their first addresses agree, since the lower one would read differently in the
other list, and then so do their first bytes and what is left of them. -/
theorem eq_of_read_eq (h : wfFrom lo m = true) (h' : wfFrom lo m' = true)
    (hread : ∀ a < Config.memSize, read m a = read m' a) : m = m' := by
  induction m generalizing m' lo with
  | nil =>
    cases m' with
    | nil => rfl
    | cons c' _ =>
      obtain ⟨-, ha', -, -⟩ := wfFrom_cons.1 h'
      exact absurd (hread c'.1 ha').symm (read_ne_of_head h' (m' := []) rfl)
  | cons c rest ih =>
    obtain ⟨a, v⟩ := c
    obtain ⟨-, ha, hv, hrest⟩ := wfFrom_cons.1 h
    cases m' with
    | nil => exact absurd (hread a ha) (read_ne_of_head h (m' := []) rfl)
    | cons c' rest' =>
      obtain ⟨a', v'⟩ := c'
      obtain ⟨-, ha', hv', hrest'⟩ := wfFrom_cons.1 h'
      obtain hlt | rfl | hlt := Nat.lt_trichotomy a a'
      · exact absurd (hread a ha) (read_ne_of_head h (wfFrom_cons.2 ⟨hlt, ha', hv', hrest'⟩))
      · have hbyte : v = v' := by simpa [read] using hread a ha
        have hreads : ∀ b < Config.memSize, read rest b = read rest' b := by
          intro b hb
          obtain hab | hba := Nat.lt_or_ge a b
          · simpa [read, hab.ne'] using hread b hb
          · rw [read_below hrest (Nat.lt_succ_of_le hba), read_below hrest' (Nat.lt_succ_of_le hba)]
        rw [hbyte, ih hrest hrest' hreads]
      · exact absurd (hread a' ha').symm (read_ne_of_head h' (wfFrom_cons.2 ⟨hlt, ha, hv, hrest⟩))

end

end Memory

/-- Settles O22: the canonical form is unique, from address 0 on. -/
theorem canonicalMemoriesThatReadAlikeAreEqual : Obligations.CanonicalMemoriesThatReadAlikeAreEqual :=
  fun _ _ h h' hread => Memory.eq_of_read_eq h h' hread

end Machine
end Sys2Proof

/-! SUPPORT. The Step cycle and memory (20_memory.md): what is fetched is run or refused, a byte write touches one byte,
and LD [I],Vx and LD B,Vx store their bytes where the next fetch reads them. -/

namespace Sys2Proof
namespace Machine

section
variable {s t : State} {x : Reg}

/-! ### The fetch -/

/-- A fetch outside memory ends the Step (20_memory.md R44), whatever else the state holds. -/
theorem step_of_pc_outside (hp : NoPause s) (hpc : 0xFFE < s.pc.toNat) :
    step s = .next { s with lastResult := .fault (.fetchOutOfRange s.pc) } := by
  have hf : s.fetchable = false := by
    rw [← Bool.not_eq_true, State.fetchable_iff]
    omega
  exact step_of_not_fetchable (noPause_iff.1 hp) hf

/-- The fetch at `p` takes the byte at `p` as the high byte and the byte after it as the low one (R42). -/
theorem exists_fetchedWord (t : State) (p : Word) :
    ∃ w, FetchedWord { t with pc := p } w ∧ w.toNat / 256 = (t.mem.read p.toNat).toNat ∧
      w.toNat % 256 = (t.mem.read (p.toNat + 1)).toNat := by
  have hlow := (t.mem.read (p.toNat + 1)).isLt
  refine ⟨wordOfBytes (t.mem.read p.toNat) (t.mem.read (p.toNat + 1)), toNat_wordOfBytes _ _, ?_, ?_⟩
  · rw [toNat_wordOfBytes]
    omega
  · rw [toNat_wordOfBytes]
    omega

/-! ### Byte writes -/

/-- By extensionality of the canonical form: both orders read the same at every address (R54). -/
theorem Memory.write_comm {m : Memory} {a b : Nat} {v w : Byte} (h : m.wf = true) (ha : a < Config.memSize)
    (hb : b < Config.memSize) (hne : b ≠ a) : (m.write a v).write b w = (m.write b w).write a v := by
  have hwa : (m.write a v).wf = true := wf_write h ha
  have hwb : (m.write b w).wf = true := wf_write h hb
  refine eq_of_read_eq (wf_write hwa hb) (wf_write hwb ha) fun c _ => ?_
  rw [read_write hwa, read_write h, read_write hwb, read_write h]
  by_cases hca : c = a
  · rw [if_pos hca, if_pos hca, if_neg fun hcb => hne (hcb.symm.trans hca)]
  · rw [if_neg hca, if_neg hca]

/-! ### The bytes an instruction stores at I -/

/-- An executed range-checked store puts its bytes at I, I + 1, ... and leaves every byte outside that range
(20_memory.md R46, R54). -/
theorem read_of_stored {bytes : List Byte} (hwf : s.mem.wf = true) (hne : bytes ≠ [])
    (h : checkRange bytes.length s (done { s with mem := s.mem.writeBytes s.i.toNat bytes }) = .next t)
    (hok : t.lastResult = .ok) :
    (∀ j (hj : j < bytes.length), t.mem.read (s.i.toNat + j) = bytes[j]) ∧
      SameMemOutside s.i.toNat bytes.length s t := by
  obtain ⟨hfit, rfl⟩ | rfl := checkRange_done_eq_next h
  · have hpos := List.length_pos_iff.2 hne
    have hin : s.i.toNat + bytes.length ≤ Config.memSize := by rw [Config.memSize]; omega
    exact ⟨fun j hj => Memory.read_writeBytes_of_inside hwf hin hj,
      fun b hb => Memory.read_writeBytes_of_outside hwf hin hb⟩
  · cases hok

/-- LD [I],Vx puts register j at I + j, for j up to x, and leaves every other byte (43_index_memory.md R134). -/
theorem read_of_exec_storeRegs (hwf : s.mem.wf = true) (h : exec (.storeRegs x) s = .next t)
    (hok : t.lastResult = .ok) :
    (∀ j : Reg, j ≤ x → t.mem.read (s.i.toNat + j.val) = s.reg j) ∧
      SameMemOutside s.i.toNat (regCount x) s t := by
  have hlen : (s.firstRegs (regCount x)).length = regCount x := length_firstRegs s x.isLt
  have hne : s.firstRegs (regCount x) ≠ [] := List.ne_nil_of_length_eq_add_one hlen
  rw [exec, execStoreRegs] at h
  obtain ⟨hin, hout⟩ := read_of_stored hwf hne (by rwa [hlen]) hok
  refine ⟨fun j hj => ?_, hlen ▸ hout⟩
  have hjlen : j.val < (s.firstRegs (regCount x)).length := by rw [hlen]; exact Nat.lt_succ_of_le hj
  rw [hin j hjlen, getElem_firstRegs]

/-- LD B,Vx puts the digits of Vx at I, I + 1 and I + 2, hundreds first, and leaves every other byte (R136). -/
theorem read_of_exec_ldB (hwf : s.mem.wf = true) (h : exec (.ldB x) s = .next t) (hok : t.lastResult = .ok) :
    ((t.mem.read s.i.toNat).toNat = (s.reg x).toNat / 100 ∧
      (t.mem.read (s.i.toNat + 1)).toNat = (s.reg x).toNat / 10 % 10 ∧
      (t.mem.read (s.i.toNat + 2)).toNat = (s.reg x).toNat % 10) ∧
      SameMemOutside s.i.toNat 3 s t := by
  obtain ⟨hin, hout⟩ := read_of_stored (bytes := digits (s.reg x)) hwf (List.cons_ne_nil _ _) h hok
  have hv := (s.reg x).isLt
  refine ⟨⟨?_, ?_, ?_⟩, hout⟩
  · exact (congrArg BitVec.toNat (hin 0 (by simp))).trans (Nat.mod_eq_of_lt (by omega))
  · exact (congrArg BitVec.toNat (hin 1 (by simp))).trans (Nat.mod_eq_of_lt (by omega))
  · exact (congrArg BitVec.toNat (hin 2 (by simp))).trans (Nat.mod_eq_of_lt (by omega))

end

/-- Settles O7: the word at PC is the model's own fetch, and the Step is neither paused nor outside memory. -/
theorem stepRunsTheDecodedInstruction : Obligations.StepRunsTheDecodedInstruction := by
  intro s w i hp hpc hw hi
  obtain rfl := fetchedWord_iff.1 hw
  exact step_of_ok (noPause_iff.1 hp) (State.fetchable_iff.2 hpc) hi

/-- Settles O9: the fault changes only the reported result, which no Step reads, so the next Step faults alike. -/
theorem fetchOutsideMemoryFaultsAndRepeats : Obligations.FetchOutsideMemoryFaultsAndRepeats :=
  fun _ hp hpc => ⟨step_of_pc_outside hp hpc, step_of_pc_outside hp hpc⟩

/-- Settles O21, from what a read after a write returns and the uniqueness of the canonical form. -/
theorem byteWriteChangesThatByteOnly : Obligations.ByteWriteChangesThatByteOnly := by
  intro m a b v w h ha
  refine ⟨Memory.wf_write h ha, ?_, fun hb => ?_, fun hb hne => Memory.write_comm h ha hb hne⟩
  · rw [Memory.read_write h, if_pos rfl]
  · rw [Memory.read_write h, if_neg hb]

/-- Settles O23: the fetch reads the two bytes at `p` and `p + 1`, and each is a stored byte or one outside the store. -/
theorem storesAreSeenByTheNextFetch : Obligations.StoresAreSeenByTheNextFetch := by
  intro s t x p hwf hok
  obtain ⟨w, hw, hhigh, hlow⟩ := exists_fetchedWord t p
  refine ⟨fun h => ⟨w, hw, ?_⟩, fun h => ⟨w, hw, ?_⟩⟩ <;> rw [hhigh, hlow]
  · obtain ⟨hin, hout⟩ := read_of_exec_storeRegs hwf h hok
    rw [regCount] at hout
    refine ⟨fun j hj hp => ?_, fun j hj hp => ?_, fun hp => ?_, fun hp => ?_⟩
    · rw [hp, hin j hj]
    · rw [hp, hin j hj]
    · rw [hout _ (by omega)]
    · rw [hout _ (by omega)]
  · obtain ⟨⟨h0, h1, h2⟩, hout⟩ := read_of_exec_ldB hwf h hok
    refine ⟨fun hp => hp ▸ h0, fun hp => hp ▸ h1, fun hp => hp ▸ h2, fun hp => hp ▸ h0, fun hp => hp ▸ h1,
      fun hp => hp ▸ h2, fun hp => ?_, fun hp => ?_⟩
    · rw [hout _ (by omega)]
    · rw [hout _ (by omega)]

end Machine
end Sys2Proof

/-! SUPPORT. The decoder and the encoder as inverses (30_encoding.md): the rows of the table exclude each other, each
row's instruction has the word the row read it from, and the words without a row are those of R69. -/

namespace Sys2Proof

section
variable {p q : Pattern} {r s : Row} {o : Opcode} {w : Word} {i : Instr}

/-! ### When a pattern accepts an opcode (R64) -/

@[simp] theorem Pattern.fieldMatches_none (v : Nibble) : fieldMatches none v = true := rfl

@[simp] theorem Pattern.fieldMatches_some {a v : Nibble} : fieldMatches (some a) v = true ↔ a = v := beq_iff_eq

theorem Pattern.accepts_iff : p.accepts o = true ↔ fieldMatches p.p1 o.n1 = true ∧ fieldMatches p.p2 o.n2 = true ∧
    fieldMatches p.p3 o.n3 = true ∧ fieldMatches p.p4 o.n4 = true := by
  simp only [accepts, Bool.and_eq_true, and_assoc]

/-! ### No opcode is accepted by two rows (R68) -/

/-- Two fields of R64 that are both present and differ, so that no nibble matches both. -/
def Pattern.fieldsClash : Option Nibble → Option Nibble → Bool
  | some a, some b => a != b
  | _, _ => false

/-- Two patterns that differ in a nibble fixed by both: the reason R68 gives for each pair of rows. -/
def Pattern.clashes (p q : Pattern) : Bool :=
  fieldsClash p.p1 q.p1 || fieldsClash p.p2 q.p2 || fieldsClash p.p3 q.p3 || fieldsClash p.p4 q.p4

theorem Pattern.fieldsClash_eq_false {a b : Option Nibble} {v : Nibble} (ha : fieldMatches a v = true)
    (hb : fieldMatches b v = true) : fieldsClash a b = false := by
  cases a with
  | none => rfl
  | some a =>
    cases b with
    | none => rfl
    | some b => simp [fieldsClash, fieldMatches_some.1 ha, fieldMatches_some.1 hb]

theorem Pattern.clashes_eq_false (hp : p.accepts o = true) (hq : q.accepts o = true) : p.clashes q = false := by
  obtain ⟨hp1, hp2, hp3, hp4⟩ := accepts_iff.1 hp
  obtain ⟨hq1, hq2, hq3, hq4⟩ := accepts_iff.1 hq
  rw [clashes, fieldsClash_eq_false hp1 hq1, fieldsClash_eq_false hp2 hq2, fieldsClash_eq_false hp3 hq3,
    fieldsClash_eq_false hp4 hq4]
  rfl

theorem opcodeTable_pairwise_clashes : opcodeTable.Pairwise fun r s => r.pattern.clashes s.pattern = true := by
  decide

theorem not_lt_of_accepts {a b : Fin opcodeTable.length} (ha : opcodeTable[a].pattern.accepts o = true)
    (hb : opcodeTable[b].pattern.accepts o = true) : ¬ a < b := by
  intro hab
  have hclash := List.pairwise_iff_get.1 opcodeTable_pairwise_clashes a b hab
  exact Bool.false_ne_true ((Pattern.clashes_eq_false ha hb).symm.trans hclash)

theorem rowIndex_eq_of_accepts {a b : Fin opcodeTable.length} (ha : opcodeTable[a].pattern.accepts o = true)
    (hb : opcodeTable[b].pattern.accepts o = true) : a = b :=
  le_antisymm (not_lt.1 (not_lt_of_accepts hb ha)) (not_lt.1 (not_lt_of_accepts ha hb))

theorem row_eq_of_accepts (hr : r ∈ opcodeTable) (hs : s ∈ opcodeTable) (hra : r.pattern.accepts o = true)
    (hsa : s.pattern.accepts o = true) : r = s := by
  obtain ⟨a, rfl⟩ := List.get_of_mem hr
  obtain ⟨b, rfl⟩ := List.get_of_mem hs
  rw [rowIndex_eq_of_accepts hra hsa]

/-! ### What the decoder answers (R65) -/

theorem decode_of_accepts (hr : r ∈ opcodeTable) (ha : r.pattern.accepts (Opcode.ofWord w) = true) :
    decode w = .ok (r.make (Opcode.ofWord w)) := by
  rw [decode]
  split
  next s hs =>
    have hsa := List.find?_some hs
    rw [row_eq_of_accepts (List.mem_of_find?_eq_some hs) hr hsa ha]
  next hnone => exact absurd ha (List.find?_eq_none.1 hnone r hr)

theorem exists_row_of_decode (h : decode w = .ok i) :
    ∃ r ∈ opcodeTable, r.pattern.accepts (Opcode.ofWord w) = true ∧ r.make (Opcode.ofWord w) = i := by
  rw [decode] at h
  split at h
  next r hr =>
    cases h
    have ha := List.find?_some hr
    exact ⟨r, List.mem_of_find?_eq_some hr, ha, rfl⟩
  next => cases h

theorem decodeBytes_of_ok {high low : Byte} {rest : List Byte} (h : decode (wordOfBytes high low) = .ok i) :
    decodeBytes (high :: low :: rest) = .ok (i, rest) := by
  rw [decodeBytes, h]

/-! ### Every instruction's word decodes to it (R66) -/

open Laws.EncodesToItsRow in
theorem encodesToItsRow : ∀ i : Instr, Statement i
  | .cls => cls
  | .ret => ret
  | .jp nnn => jp nnn
  | .call nnn => call nnn
  | .seImm x kk => seImm x kk
  | .sneImm x kk => sneImm x kk
  | .seReg x y => seReg x y
  | .ldImm x kk => ldImm x kk
  | .addImm x kk => addImm x kk
  | .ldReg x y => ldReg x y
  | .orReg x y => orReg x y
  | .andReg x y => andReg x y
  | .xorReg x y => xorReg x y
  | .addReg x y => addReg x y
  | .sub x y => sub x y
  | .shr x y => shr x y
  | .subn x y => subn x y
  | .shl x y => shl x y
  | .sneReg x y => sneReg x y
  | .ldI nnn => ldI nnn
  | .jpV0 nnn => jpV0 nnn
  | .rnd x kk => rnd x kk
  | .drw x y n => drw x y n
  | .skp x => skp x
  | .sknp x => sknp x
  | .ldVxDt x => ldVxDt x
  | .ldVxK x => ldVxK x
  | .ldDtVx x => ldDtVx x
  | .ldStVx x => ldStVx x
  | .addI x => addI x
  | .ldF x => ldF x
  | .ldB x => ldB x
  | .storeRegs x => storeRegs x
  | .loadRegs x => loadRegs x

theorem decode_encode (i : Instr) : decode (encode i) = .ok i := by
  obtain ⟨r, hr, ha, hmake⟩ := encodesToItsRow i
  rw [decode_of_accepts (List.mem_of_getElem? hr) ha, hmake]

/-! ### A row's instruction has the word it was read from (R63, R66) -/

theorem formatA_nnn (o : Opcode) : formatA o.n1 o.nnn = o.toWord := by
  apply BitVec.eq_of_toNat_eq
  simp only [formatA, Opcode.nnn, Opcode.toWord, toNat_append_add]
  omega

theorem formatXK_x_kk (o : Opcode) : formatXK o.n1 o.x o.kk = o.toWord := by
  have hx : o.x.val = o.n2.toNat := rfl
  apply BitVec.eq_of_toNat_eq
  simp only [toNat_formatXK, hx, Opcode.kk, Opcode.toWord, toNat_append_add]
  omega

/-- Row `r` makes, of each opcode it accepts, the instruction that has that opcode as its word. -/
def Row.Faithful (r : Row) : Prop := ∀ o, r.pattern.accepts o = true → encode (r.make o) = o.toWord

section
variable {n1 n2 n3 n4 : Nibble} {make : Opcode → Instr}

theorem faithful_formatZ (h : ∀ o, encode (make o) = Opcode.toWord ⟨n1, n2, n3, n4⟩) :
    Row.Faithful ⟨⟨some n1, some n2, some n3, some n4⟩, make⟩ := by
  rintro ⟨m1, m2, m3, m4⟩ ha
  obtain ⟨rfl, rfl, rfl, rfl⟩ : n1 = m1 ∧ n2 = m2 ∧ n3 = m3 ∧ n4 = m4 := by
    simpa [Pattern.accepts_iff] using ha
  exact h _

theorem faithful_formatA (h : ∀ o, encode (make o) = formatA n1 o.nnn) :
    Row.Faithful ⟨⟨some n1, none, none, none⟩, make⟩ := by
  intro o ha
  obtain rfl : n1 = o.n1 := by simpa [Pattern.accepts_iff] using ha
  rw [h, formatA_nnn]

theorem faithful_formatXK (h : ∀ o, encode (make o) = formatXK n1 o.x o.kk) :
    Row.Faithful ⟨⟨some n1, none, none, none⟩, make⟩ := by
  intro o ha
  obtain rfl : n1 = o.n1 := by simpa [Pattern.accepts_iff] using ha
  rw [h, formatXK_x_kk]

theorem faithful_formatXYN (h : ∀ o, encode (make o) = formatXY n1 o.x o.y o.n) :
    Row.Faithful ⟨⟨some n1, none, none, none⟩, make⟩ := by
  intro o ha
  obtain rfl : n1 = o.n1 := by simpa [Pattern.accepts_iff] using ha
  rw [h]
  rfl

theorem faithful_formatXY (h : ∀ o, encode (make o) = formatXY n1 o.x o.y n4) :
    Row.Faithful ⟨⟨some n1, none, none, some n4⟩, make⟩ := by
  intro o ha
  obtain ⟨rfl, rfl⟩ : n1 = o.n1 ∧ n4 = o.n4 := by simpa [Pattern.accepts_iff] using ha
  rw [h]
  rfl

theorem faithful_formatX (h : ∀ o, encode (make o) = formatX n1 o.x (n3 ++ n4)) :
    Row.Faithful ⟨⟨some n1, none, some n3, some n4⟩, make⟩ := by
  intro o ha
  obtain ⟨rfl, rfl, rfl⟩ : n1 = o.n1 ∧ n3 = o.n3 ∧ n4 = o.n4 := by simpa [Pattern.accepts_iff] using ha
  rw [h]
  exact formatXK_x_kk o

end

theorem rows1_faithful : ∀ r ∈ rows1, r.Faithful := by
  simp only [rows1, List.forall_mem_cons]
  exact ⟨faithful_formatZ fun _ => rfl, faithful_formatZ fun _ => rfl, faithful_formatA fun _ => rfl,
    faithful_formatA fun _ => rfl, faithful_formatXK fun _ => rfl, faithful_formatXK fun _ => rfl,
    faithful_formatXY fun _ => rfl, faithful_formatXK fun _ => rfl, faithful_formatXK fun _ => rfl,
    List.forall_mem_nil _⟩

theorem rows2_faithful : ∀ r ∈ rows2, r.Faithful := by
  simp only [rows2, List.forall_mem_cons]
  exact ⟨faithful_formatXY fun _ => rfl, faithful_formatXY fun _ => rfl, faithful_formatXY fun _ => rfl,
    faithful_formatXY fun _ => rfl, faithful_formatXY fun _ => rfl, faithful_formatXY fun _ => rfl,
    faithful_formatXY fun _ => rfl, faithful_formatXY fun _ => rfl, faithful_formatXY fun _ => rfl,
    List.forall_mem_nil _⟩

theorem rows3_faithful : ∀ r ∈ rows3, r.Faithful := by
  simp only [rows3, List.forall_mem_cons]
  exact ⟨faithful_formatXY fun _ => rfl, faithful_formatA fun _ => rfl, faithful_formatA fun _ => rfl,
    faithful_formatXK fun _ => rfl, faithful_formatXYN fun _ => rfl, faithful_formatX fun _ => rfl,
    faithful_formatX fun _ => rfl, List.forall_mem_nil _⟩

theorem rows4_faithful : ∀ r ∈ rows4, r.Faithful := by
  simp only [rows4, List.forall_mem_cons]
  exact ⟨faithful_formatX fun _ => rfl, faithful_formatX fun _ => rfl, faithful_formatX fun _ => rfl,
    faithful_formatX fun _ => rfl, faithful_formatX fun _ => rfl, faithful_formatX fun _ => rfl,
    faithful_formatX fun _ => rfl, faithful_formatX fun _ => rfl, faithful_formatX fun _ => rfl,
    List.forall_mem_nil _⟩

theorem opcodeTable_faithful : ∀ r ∈ opcodeTable, r.Faithful := by
  simp only [opcodeTable, List.forall_mem_append]
  exact ⟨⟨⟨rows1_faithful, rows2_faithful⟩, rows3_faithful⟩, rows4_faithful⟩

theorem encode_of_decode (h : decode w = .ok i) : encode i = w := by
  obtain ⟨r, hr, ha, rfl⟩ := exists_row_of_decode h
  rw [opcodeTable_faithful r hr _ ha, Opcode.toWord_ofWord]

/-! ### The words without a row (R69) -/

@[simp] theorem Opcode.kk_formatX (n1 : Nibble) (x : Reg) (low : Byte) : (ofWord (formatX n1 x low)).kk = low :=
  kk_formatXK n1 x low

/-- The groups of R69 in the fields of R62. -/
theorem invalidWord_iff : Machine.InvalidWord w ↔
    ((Opcode.ofWord w).n1 = 0x0 ∧ (Opcode.ofWord w).nnn ≠ 0x0E0 ∧ (Opcode.ofWord w).nnn ≠ 0x0EE) ∨
    ((Opcode.ofWord w).n1 = 0x5 ∧ (Opcode.ofWord w).n4 ≠ 0) ∨
    ((Opcode.ofWord w).n1 = 0x8 ∧ (Opcode.ofWord w).n4 ∈ ([0x8, 0x9, 0xA, 0xB, 0xC, 0xD, 0xF] : List Nibble)) ∨
    ((Opcode.ofWord w).n1 = 0x9 ∧ (Opcode.ofWord w).n4 ≠ 0) ∨
    ((Opcode.ofWord w).n1 = 0xE ∧ (Opcode.ofWord w).kk ∉ ([0x9E, 0xA1] : List Byte)) ∨
    ((Opcode.ofWord w).n1 = 0xF ∧
      (Opcode.ofWord w).kk ∉ ([0x07, 0x0A, 0x15, 0x18, 0x1E, 0x29, 0x33, 0x55, 0x65] : List Byte)) := by
  have hzero : w.toNat / 0x1000 = 0 ∧ w.toNat ≠ 0x00E0 ∧ w.toNat ≠ 0x00EE ↔
      w.toNat / 4096 = 0 ∧ w.toNat % 4096 ≠ 0x0E0 ∧ w.toNat % 4096 ≠ 0x0EE := by omega
  rw [Machine.InvalidWord, hzero]
  simp only [ne_eq, List.mem_cons, List.not_mem_nil, or_false, ← BitVec.toNat_inj, Opcode.toNat_n1, Opcode.toNat_n4,
    Opcode.toNat_kk, Opcode.toNat_nnn]
  rfl

/-- The fields of each format's word are its operands and fixed nibbles, and these meet no group. -/
theorem not_invalidWord_encode (i : Instr) : ¬ Machine.InvalidWord (encode i) := by
  rw [invalidWord_iff]
  cases i with
  | cls | ret => decide
  | _ => simp [encode]

/-- Outside the six leading nibbles of R69 the table asks for nothing more. -/
theorem exists_row_n1 : ∀ n1 ∉ ([0x0, 0x5, 0x8, 0x9, 0xE, 0xF] : List Nibble),
    ∃ r ∈ opcodeTable, r.pattern = ⟨some n1, none, none, none⟩ := by decide

theorem exists_row_n1_n4 : ∀ n1 n4 : Nibble, (n1 = 0x5 ∨ n1 = 0x9) ∧ n4 = 0 ∨
    n1 = 0x8 ∧ n4 ∉ ([0x8, 0x9, 0xA, 0xB, 0xC, 0xD, 0xF] : List Nibble) →
    ∃ r ∈ opcodeTable, r.pattern = ⟨some n1, none, none, some n4⟩ := by decide

theorem exists_row_Exkk : ∀ n3 n4 : Nibble, n3 ++ n4 ∈ ([0x9E, 0xA1] : List Byte) →
    ∃ r ∈ opcodeTable, r.pattern = ⟨some 0xE, none, some n3, some n4⟩ := by decide

theorem exists_row_Fxkk : ∀ n3 n4 : Nibble,
    n3 ++ n4 ∈ ([0x07, 0x0A, 0x15, 0x18, 0x1E, 0x29, 0x33, 0x55, 0x65] : List Byte) →
    ∃ r ∈ opcodeTable, r.pattern = ⟨some 0xF, none, some n3, some n4⟩ := by decide

theorem exists_decode_of_pattern (hp : ∃ r ∈ opcodeTable, r.pattern = p) (ha : p.accepts (Opcode.ofWord w) = true) :
    ∃ i, decode w = .ok i := by
  obtain ⟨r, hr, rfl⟩ := hp
  exact ⟨_, decode_of_accepts hr ha⟩

/-- A word with leading nibble 0 is its nnn. -/
theorem eq_of_n1_eq_zero {nnn : Addr12} (h : (Opcode.ofWord w).n1 = 0) (hnnn : (Opcode.ofWord w).nnn = nnn) :
    w = formatA 0 nnn := by
  rw [← h, ← hnnn, formatA_nnn, Opcode.toWord_ofWord]

theorem exists_decode_of_not_invalidWord (h : ¬ Machine.InvalidWord w) : ∃ i, decode w = .ok i := by
  simp only [invalidWord_iff, not_or, not_and, not_not, ne_eq] at h
  obtain ⟨h0, h5, h8, h9, hE, hF⟩ := h
  by_cases hlead : (Opcode.ofWord w).n1 ∉ ([0x0, 0x5, 0x8, 0x9, 0xE, 0xF] : List Nibble)
  · exact exists_decode_of_pattern (exists_row_n1 _ hlead) (by simp [Pattern.accepts_iff])
  simp only [not_not, List.mem_cons, List.not_mem_nil, or_false] at hlead
  obtain hn | hn | hn | hn | hn | hn := hlead
  · by_cases hcls : (Opcode.ofWord w).nnn = 0x0E0
    · exact ⟨.cls, eq_of_n1_eq_zero hn hcls ▸ decode_encode .cls⟩
    · exact ⟨.ret, eq_of_n1_eq_zero hn (h0 hn hcls) ▸ decode_encode .ret⟩
  · exact exists_decode_of_pattern (exists_row_n1_n4 _ _ (.inl ⟨.inl hn, h5 hn⟩)) (by simp [Pattern.accepts_iff])
  · exact exists_decode_of_pattern (exists_row_n1_n4 _ _ (.inr ⟨hn, h8 hn⟩)) (by simp [Pattern.accepts_iff])
  · exact exists_decode_of_pattern (exists_row_n1_n4 _ _ (.inl ⟨.inr hn, h9 hn⟩)) (by simp [Pattern.accepts_iff])
  · exact exists_decode_of_pattern (exists_row_Exkk _ _ (hE hn)) (by simp [Pattern.accepts_iff, hn])
  · exact exists_decode_of_pattern (exists_row_Fxkk _ _ (hF hn)) (by simp [Pattern.accepts_iff, hn])

theorem decode_of_invalidWord (h : Machine.InvalidWord w) : decode w = .error (.invalidOpcode w) := by
  cases hd : decode w with
  | ok i => exact absurd (encode_of_decode hd ▸ h) (not_invalidWord_encode i)
  | error e => rw [Machine.decode_error hd]

end

/-- Settles O1: the word's own row accepts it, and the decoder selects that row, since no other accepts the word. -/
theorem decodeOfEncodeIsTheInstruction : Obligations.DecodeOfEncodeIsTheInstruction := fun i _ =>
  ⟨decode_encode i, decodeBytes_of_ok (by rw [wordOfBytes_bytesOfWord, decode_encode])⟩

/-- Settles O2: the row that the decoder selects makes an instruction with the word's own fields. -/
theorem encodeOfDecodeIsTheWord : Obligations.EncodeOfDecodeIsTheWord := fun _ _ h => encode_of_decode h

/-- Settles O3: any two rows fix some nibble differently, so at most one row accepts a word, wherever it stands. -/
theorem noWordMatchesTwoPatterns : Obligations.NoWordMatchesTwoPatterns := by
  refine ⟨rfl, fun w a b ha hb => rowIndex_eq_of_accepts ha hb, fun order hperm w => ?_⟩
  exact (List.find?_eq_find?_of_perm hperm.symm fun r hr s hs => row_eq_of_accepts hr.1 hs.1 hr.2 hs.2).symm

/-- Settles O4: an instruction's word lies in no group of R69, and outside the groups some row accepts the word. -/
theorem invalidWordsAreExactlyThoseListed : Obligations.InvalidWordsAreExactlyThoseListed := fun _ =>
  ⟨decode_of_invalidWord, exists_decode_of_not_invalidWord⟩

/-- Settles O5, each word by running the decoder. -/
theorem sampleWordsDecode : Obligations.SampleWordsDecode := ⟨rfl, rfl, rfl, rfl, rfl, rfl, rfl, rfl, rfl⟩

/-- Settles O6: a mask over the low bits is a remainder, and a shift moves the mask down to them. -/
theorem operandsAreTheFieldsOfTheWord : Obligations.OperandsAreTheFieldsOfTheWord := by
  intro w
  rw [Opcode.toNat_nnn, Opcode.toNat_kk, Opcode.n, Opcode.toNat_n4, Opcode.val_x, Opcode.val_y]
  refine ⟨?_, ?_, ?_, ?_, ?_⟩
  · exact (Nat.and_two_pow_sub_one_eq_mod _ 12).symm
  · exact (Nat.and_two_pow_sub_one_eq_mod _ 8).symm
  · exact (Nat.and_two_pow_sub_one_eq_mod _ 4).symm
  · rw [BitVec.ushiftRight_and_distrib, ← Nat.shiftRight_eq_div_pow w.toNat 8]
    exact (Nat.and_two_pow_sub_one_eq_mod _ 4).symm
  · rw [BitVec.ushiftRight_and_distrib, ← Nat.shiftRight_eq_div_pow w.toNat 4]
    exact (Nat.and_two_pow_sub_one_eq_mod _ 4).symm

end Sys2Proof

/-! SUPPORT. The results a Step can return (40_step_cycle.md R81, R86): what each leaves of `LastBreak`, and which
faults come from a handler. -/

namespace Sys2Proof
namespace Machine

section
variable {i : Instr} {s t : State} {pc : Word}

/-! ### What a Step returns where the breakpoint check does not pause it -/

/-- No instruction writes `LastBreak` (10_state.md R28). -/
theorem Effect.lastBreak_eq (h : Effect s i t) : t.lastBreak = s.lastBreak := by
  cases h with
  | skip _ c => exact State.lastBreak_skipIf s c
  | _ => rfl

/-- Only the breakpoint check reports a pause, and only a pause writes `LastBreak` (R81). -/
theorem step_of_noPause (hp : NoPause s) (h : step s = .next t) :
    t.lastResult ≠ .pausedAtBreakpoint ∧ t.lastBreak = s.lastBreak := by
  obtain ⟨hb, -⟩ | ⟨-, -, he⟩ | ⟨-, -, -, he⟩ | ⟨-, -, i, -, he⟩ := step_cases s
  · rw [noPause_iff.1 hp] at hb
    cases hb
  · cases he.symm.trans h
    exact ⟨by simp, rfl⟩
  · cases he.symm.trans h
    exact ⟨by simp, rfl⟩
  · have hexec : exec i s.advance = .next t := he.symm.trans h
    refine ⟨?_, (effect_of_exec hexec).lastBreak_eq⟩
    obtain hok | ⟨x, -, -, rfl⟩ | ⟨kind, rfl⟩ := exec_result hexec
    · simp [hok]
    · simp
    · simp

/-! ### Which faults a handler raises -/

/-- `FetchOutOfRange` is the fetch's own fault: no handler of R163's table raises it. -/
theorem exec_ne_fetchOutOfRange (h : exec i s = .next t) : t.lastResult ≠ .fault (.fetchOutOfRange pc) := by
  cases i with
  | ret =>
    rw [exec, execRet] at h
    split at h
    · cases h; simp
    · split at h
      · cases h; simp
      · cases h
  | call nnn =>
    rw [exec, execCall] at h
    split at h
    · cases h; simp
    · cases h; simp
  | drw | ldB | storeRegs | loadRegs =>
    obtain ⟨-, rfl⟩ | rfl := checkRange_done_eq_next h
    · simp
    · simp
  | skp x | sknp x =>
    rw [exec] at h
    simp only [execSkp, execSknp, skipOnKey] at h
    split at h
    · cases h; simp
    · cases h; simp
  | ldVxK x =>
    rw [exec, execLdVxK] at h
    split at h
    · cases h; simp
    · cases h; simp
  | _ => cases h; simp

end

/-- Settles O10: the check pauses as `step_of_breaks` says, and a Step that it does not pause neither reports a pause
nor writes `LastBreak`. -/
theorem breakpointPausesOnce : Obligations.BreakpointPausesOnce := by
  refine ⟨fun s hmem hlast => step_of_breaks (State.breaks_iff.2 ⟨hmem, hlast⟩),
    fun s t hp h => (step_of_noPause hp h).1, fun s t h hres => ?_⟩
  by_cases hp : NoPause s
  · exact (step_of_noPause hp h).2
  · have hb : s.breaks = true := by simpa [noPause_iff] using hp
    cases (step_of_breaks hb).symm.trans h
    exact absurd rfl hres

/-- Settles O11: each way a Step can go returns the result of its own row; a handler's result is `ok`, a wait with PC
set back to the instruction, or a fault other than the fetch's. -/
theorem eachResultChangesWhatItsRowSays : Obligations.EachResultChangesWhatItsRowSays := by
  intro s t h
  obtain ⟨hb, he⟩ | ⟨-, hf, he⟩ | ⟨-, -, ⟨e, hd⟩, he⟩ | ⟨-, hf, i, hd, he⟩ := step_cases s
  · cases he.symm.trans h
    exact ⟨(State.breaks_iff.1 hb).1, rfl⟩
  · cases he.symm.trans h
    have hpc : 0xFFE < s.pc.toNat := by
      rw [← Nat.not_le, ← State.fetchable_iff, hf]
      exact Bool.false_ne_true
    exact ⟨rfl, hpc, rfl⟩
  · cases he.symm.trans h
    have hinv : InvalidWord s.fetchWord := by
      by_contra hvalid
      obtain ⟨i, hi⟩ := exists_decode_of_not_invalidWord hvalid
      cases hi.symm.trans hd
    exact ⟨rfl, fetchedWord_iff.2 rfl, hinv, rfl⟩
  · have hexec : exec i s.advance = .next t := he.symm.trans h
    have hw : FetchedWord s s.fetchWord := fetchedWord_iff.2 rfl
    obtain hok | ⟨x, rfl, hkeys, rfl⟩ | ⟨kind, rfl⟩ := exec_result hexec
    · rw [hok]
      exact ⟨s.fetchWord, i, hw, hd, hexec⟩
    · have hpc : s.pc + 2 - 2 = s.pc := BitVec.add_sub_cancel _ _
      refine ⟨⟨s.fetchWord, x, hw, hd⟩, hkeys, ?_⟩
      rw [State.pc_advance, hpc]
      rfl
    · have hpc : s.pc.toNat ≤ 0xFFE := State.fetchable_iff.1 hf
      cases kind with
      | fetchOutOfRange pc => exact absurd rfl (exec_ne_fetchOutOfRange hexec)
      | _ => exact ⟨hpc, rfl⟩

end Machine
end Sys2Proof

/-! SUPPORT. The count of random bytes (40_step_cycle.md R88): no instruction but RND reads or writes it. -/

namespace Sys2Proof
namespace Machine

section
variable {i : Instr} {s t u : State} {x : Reg} {d : Nat}

/-! ### The shared operations with another count -/

theorem State.skipIf_setDraws (c : Bool) :
    State.skipIf { s with draws := d } c = { s.skipIf c with draws := d } := by
  cases c <;> rfl

theorem checkRange_setDraws {k : Nat} (h : checkRange k s (done u) = .next t) :
    checkRange k { s with draws := d } (done { u with draws := d }) = .next { t with draws := d } := by
  rw [checkRange_eq, done_eq] at h ⊢
  split at h
  · cases h
    exact if_pos ‹_›
  · cases h
    exact if_neg ‹_›

theorem skipOnKey_setDraws {wanted : Bool} (h : skipOnKey x s wanted = .next t) :
    skipOnKey x { s with draws := d } wanted = .next { t with draws := d } := by
  by_cases hk : (s.reg x).toNat < 16
  · rw [skipOnKey_of_lt hk] at h
    cases h
    rw [skipOnKey_of_lt (s := { s with draws := d }) hk, State.skipIf_setDraws]
    rfl
  · rw [skipOnKey_of_ge (Nat.not_lt.1 hk)] at h
    cases h
    exact skipOnKey_of_ge (s := { s with draws := d }) (Nat.not_lt.1 hk)

theorem execRet_setDraws (h : execRet s = .next t) : execRet { s with draws := d } = .next { t with draws := d } := by
  rw [execRet] at h ⊢
  split at h
  · cases h
    exact if_pos ‹_›
  · rw [if_neg ‹_›]
    split at h
    · cases h
      exact dif_pos ‹_›
    · cases h

theorem execCall_setDraws {nnn : Addr12} (h : execCall nnn s = .next t) :
    execCall nnn { s with draws := d } = .next { t with draws := d } := by
  rw [execCall] at h ⊢
  split at h
  · cases h
    exact dif_pos ‹_›
  · cases h
    exact dif_neg ‹_›

theorem execLdVxK_setDraws (h : execLdVxK x s = .next t) :
    execLdVxK x { s with draws := d } = .next { t with draws := d } := by
  have hk : State.leastKey { s with draws := d } = s.leastKey := rfl
  rw [execLdVxK] at h ⊢
  rw [hk]
  cases hleast : s.leastKey with
  | some k =>
    rw [hleast] at h
    cases h
    rfl
  | none =>
    rw [hleast] at h
    cases h
    rfl

/-- An instruction that is not RND does from any other count of random bytes what it does from this one, and keeps that
count (R88). -/
theorem exec_setDraws (hi : ∀ x kk, i ≠ .rnd x kk) (h : exec i s = .next t) :
    exec i { s with draws := d } = .next { t with draws := d } := by
  cases i with
  | rnd x kk => exact absurd rfl (hi x kk)
  | ret => exact execRet_setDraws h
  | call nnn => exact execCall_setDraws h
  | seImm | sneImm | seReg | sneReg =>
    cases h
    exact congrArg done (State.skipIf_setDraws _)
  | drw | ldB | storeRegs | loadRegs => exact checkRange_setDraws h
  | skp x | sknp x => exact skipOnKey_setDraws h
  | ldVxK x => exact execLdVxK_setDraws h
  | _ => cases h; rfl

end

/-- Settles O20: with the state's own count as the other count, `exec_setDraws` says that the count is kept. -/
theorem onlyRandomTakesTheRandomByte : Obligations.OnlyRandomTakesTheRandomByte := by
  intro i s t d hi h
  refine ⟨?_, exec_setDraws hi h⟩
  have hsame : exec i s = .next { t with draws := s.draws } := exec_setDraws hi h
  rw [h] at hsame
  injection hsame with ht
  rw [ht]

end Machine
end Sys2Proof

/-! SUPPORT. The model's loading aid `withFetchWord` (log entry 4): the state it gives, and that the next Step fetches
the word it placed. -/

namespace Sys2Proof

theorem decodeTableWord_eq (nbits w : Nat) : decodeTableWord nbits w = (decode (tableWord nbits w)).toOption := by
  rw [decodeTableWord, decodeBytes, wordOfBytes_bytesOfWord]
  cases decode (tableWord nbits w) <;> rfl

theorem tableWord_16 (w : Nat) : tableWord 16 w = BitVec.ofNat 16 w :=
  BitVec.eq_of_toNat_eq (by simp [tableWord])

namespace Machine

section
variable {s : State} {nbits w : Nat}

/-- Where `withFetchWord` places its word: at PC where a word can be fetched, else at ROM_BASE. -/
def State.placePc (s : State) : Word := if s.pc.toNat ≤ 0xFFE then s.pc else 0x200

/-- What `withFetchWord` makes of `LastBreak`: PC where the breakpoint check would pause, else what it was. -/
def State.placeLastBreak (s : State) : Option Word :=
  if State.breaks { s with pc := s.placePc } then some s.placePc else s.lastBreak

theorem State.toNat_placePc_le : s.placePc.toNat ≤ 0xFFE := by
  rw [placePc]
  split
  · assumption
  · decide

theorem State.placeLastBreak_of_noPause (hp : NoPause { s with pc := s.placePc }) : s.placeLastBreak = s.lastBreak := by
  rw [placeLastBreak, noPause_iff.1 hp]
  rfl

theorem State.placeLastBreak_of_not_noPause (hp : ¬ NoPause { s with pc := s.placePc }) :
    s.placeLastBreak = some s.placePc :=
  if_pos (by simpa [noPause_iff] using hp)

theorem State.readyToFetch_eq : s.readyToFetch = { s with pc := s.placePc, lastBreak := s.placeLastBreak } := by
  have hpc : (if s.fetchable then s else { s with pc := BitVec.ofNat 16 Config.romBase }) =
      { s with pc := s.placePc } := by
    rw [placePc]
    by_cases hf : s.pc.toNat ≤ 0xFFE
    · rw [if_pos (fetchable_iff.2 hf), if_pos hf]
    · rw [if_neg (mt fetchable_iff.1 hf), if_neg hf]
      rfl
  rw [readyToFetch, hpc, placeLastBreak]
  cases State.breaks { s with pc := s.placePc } <;> rfl

/-- What `withFetchWord` changes: the bytes of the word, PC and `LastBreak`. -/
theorem State.withFetchWord_eq :
    s.withFetchWord nbits w =
      { s with
        mem := s.mem.storeWord s.placePc.toNat (tableWord nbits w)
        pc := s.placePc
        lastBreak := s.placeLastBreak } := by
  rw [withFetchWord, readyToFetch_eq]

/-- The breakpoint check does not pause at the placed word (R81). -/
theorem State.noPause_withFetchWord : NoPause (s.withFetchWord nbits w) := by
  rw [withFetchWord_eq]
  by_cases hp : NoPause { s with pc := s.placePc }
  · intro hmem
    exact (placeLastBreak_of_noPause hp).trans (hp hmem)
  · exact fun _ => placeLastBreak_of_not_noPause hp

theorem State.fetchable_withFetchWord : (s.withFetchWord nbits w).fetchable = true := by
  rw [withFetchWord_eq, fetchable_iff]
  exact toNat_placePc_le

/-- A word stored in memory is the word its two bytes make (20_memory.md R42). -/
theorem Memory.wordOfBytes_storeWord {m : Memory} {a : Nat} (v : Word) (h : m.wf = true) (ha : a ≤ 0xFFE) :
    wordOfBytes ((m.storeWord a v).read a) ((m.storeWord a v).read (a + 1)) = v := by
  have hin : a + [(bytesOfWord v).1, (bytesOfWord v).2].length ≤ Config.memSize := Nat.add_le_add_right ha 2
  have hhigh : (m.storeWord a v).read a = (bytesOfWord v).1 := read_writeBytes_of_inside h hin (k := 0) (by simp)
  have hlow : (m.storeWord a v).read (a + 1) = (bytesOfWord v).2 := read_writeBytes_of_inside h hin (k := 1) (by simp)
  rw [hhigh, hlow, wordOfBytes_bytesOfWord]

theorem State.fetchWord_withFetchWord (h : s.mem.wf = true) :
    (s.withFetchWord nbits w).fetchWord = tableWord nbits w := by
  rw [withFetchWord_eq]
  exact Memory.wordOfBytes_storeWord _ h toNat_placePc_le

/-- Only the two bytes at the PC of the new state change. -/
theorem State.sameMemOutside_withFetchWord (h : s.mem.wf = true) :
    SameMemOutside (s.withFetchWord nbits w).pc.toNat 2 s (s.withFetchWord nbits w) := by
  intro b hb
  rw [withFetchWord_eq] at hb ⊢
  exact Memory.read_writeBytes_of_outside h (Nat.add_le_add_right toNat_placePc_le 2) hb

/-- The Step after placing a word decodes that word (R80). -/
theorem step_withFetchWord_of_ok {i : Instr} (h : s.mem.wf = true) (hi : decode (tableWord nbits w) = .ok i) :
    step (s.withFetchWord nbits w) = exec i (s.withFetchWord nbits w).advance :=
  step_of_ok (noPause_iff.1 State.noPause_withFetchWord) State.fetchable_withFetchWord
    (by rwa [State.fetchWord_withFetchWord h])

theorem step_withFetchWord_of_error {e : DecodeError} (h : s.mem.wf = true)
    (he : decode (tableWord nbits w) = .error e) :
    step (s.withFetchWord nbits w) = .next { s.withFetchWord nbits w with
      pc := (s.withFetchWord nbits w).pc + 2
      lastResult := .invalidOpcode (s.withFetchWord nbits w).pc (tableWord nbits w) } := by
  have hw := State.fetchWord_withFetchWord (nbits := nbits) (w := w) h
  rw [← hw] at he
  rw [step_of_error (noPause_iff.1 State.noPause_withFetchWord) State.fetchable_withFetchWord he, hw]

end

/-- Settles O57: the placed word lies where the next Step fetches, no pause stands before it, and `withFetchWord_eq`
names all that changed. -/
theorem placedWordIsTheNextOneRun : Obligations.PlacedWordIsTheNextOneRun := by
  intro s w hwf _
  have hpc : (s.withFetchWord 16 w).pc = s.placePc := by rw [State.withFetchWord_eq]
  have hlast : (s.withFetchWord 16 w).lastBreak = s.placeLastBreak := by rw [State.withFetchWord_eq]
  rw [decodeTableWord_eq]
  refine ⟨fun i hi => ?_, fun hnone => ?_, State.sameMemOutside_withFetchWord hwf, ?_, fun hp => ?_, fun hp => ?_⟩
  · cases hd : decode (tableWord 16 w) with
    | ok j =>
      rw [hd] at hi
      cases hi
      exact step_withFetchWord_of_ok hwf hd
    | error e =>
      rw [hd] at hi
      cases hi
  · cases hd : decode (tableWord 16 w) with
    | ok j =>
      rw [hd] at hnone
      cases hnone
    | error e =>
      rw [← tableWord_16]
      exact step_withFetchWord_of_error hwf hd
  · rw [State.withFetchWord_eq]
    rfl
  · rw [hpc] at hp
    rw [hlast, State.placeLastBreak_of_noPause hp]
  · rw [hpc] at hp ⊢
    rw [hlast, State.placeLastBreak_of_not_noPause hp]

end Machine
end Sys2Proof

/-! SUPPORT. Control transfer (41_flow.md): the word of an instruction as a number, the frame of an instruction that
writes PC only, and the obligations of JP, CALL, RET, the skips and JP V0. -/

namespace Sys2Proof
namespace Machine

section
variable {i : Instr} {s : State}

/-! ### The word of an instruction as a number (30_encoding.md R63, R66) -/

/-- The encoding direction is enough: decoding undoes it (`decode_encode`). -/
theorem encodes_ofNat {n : Nat} (h : (encode i).toNat = n) : Encodes (BitVec.ofNat 16 n) i := by
  subst h
  rw [BitVec.ofNat_toNat, BitVec.setWidth_eq]
  exact ⟨decode_encode i, rfl⟩

/-! ### An instruction that writes PC only -/

theorem onlyPc_of_pc_write (p : Word) (r : StepResult) : OnlyPc s { s with pc := p, lastResult := r } :=
  ⟨rfl, fun _ => rfl⟩

/-- A skip that ends its Step, with `p` any way to write the PC it leaves (41_flow.md R100). -/
theorem exists_done_skipIf {c : Bool} {p : Word} (hp : (if c then s.pc + 2 else s.pc) = p) :
    ∃ t, done (s.skipIf c) = .next t ∧ t.lastResult = .ok ∧ t.pc = p ∧ OnlyPc s t := by
  refine ⟨_, done_eq _, rfl, (s.pc_skipIf c).trans hp, ?_⟩
  cases c with
  | true => exact onlyPc_of_pc_write _ _
  | false => exact onlyPc_of_pc_write s.pc _

/-- Skip when two bytes are equal as numbers (R104, R106). -/
theorem exists_done_skipIf_beq (a b : Byte) :
    ∃ t, done (s.skipIf (a == b)) = .next t ∧ t.lastResult = .ok ∧
      t.pc = (if a.toNat = b.toNat then s.pc + 2 else s.pc) ∧ OnlyPc s t :=
  exists_done_skipIf (by simp only [beq_iff_eq, BitVec.toNat_inj])

/-- Skip when two bytes differ as numbers (R105, R108). -/
theorem exists_done_skipIf_bne (a b : Byte) :
    ∃ t, done (s.skipIf (a != b)) = .next t ∧ t.lastResult = .ok ∧
      t.pc = (if a.toNat = b.toNat then s.pc else s.pc + 2) ∧ OnlyPc s t :=
  exists_done_skipIf (by simp only [bne_iff_ne, ne_eq, ite_not, BitVec.toNat_inj])

/-- The target of JP V0 is the sum of the two numbers: V0 lies below the mask 0xFFF, and the sum below 2^16 (R107). -/
theorem toNat_jpV0_target (v : Byte) (nnn : Addr12) :
    ((v.setWidth 16 &&& 0xFFF) + addrOf nnn : Word).toNat = v.toNat + nnn.toNat := by
  have hmask : (v.setWidth 16 &&& 0xFFF : Word).toNat = v.toNat := by
    have hmod : (v.setWidth 16 &&& 0xFFF : Word).toNat = v.toNat % 2 ^ 16 % 2 ^ 12 := by
      rw [BitVec.toNat_and, BitVec.toNat_setWidth]
      exact Nat.and_two_pow_sub_one_eq_mod _ 12
    rw [hmod]
    omega
  rw [BitVec.toNat_add, hmask, toNat_addrOf]
  omega

end

/-- Settles O24: JP writes PC only, and nnn widened to 16 bits is the same number. -/
theorem jumpSetsPc : Obligations.JumpSetsPc := fun nnn _ =>
  ⟨encodes_ofNat (toNat_formatA 0x1 nnn), _, rfl, rfl, toNat_addrOf nnn, onlyPc_of_pc_write _ _⟩

/-- Settles O25, on either side of SP = 15. -/
theorem callPushesTheReturnAddress : Obligations.CallPushesTheReturnAddress := by
  intro nnn s
  refine ⟨encodes_ofNat (toNat_formatA 0x2 nnn), fun h15 => ?_, execCall_of_ge⟩
  have hsp : (s.sp + 1).toNat = s.sp.toNat + 1 := by bv_omega
  refine ⟨_, execCall_of_lt h15, rfl, hsp, toNat_addrOf nnn, fun k => ?_, fun _ => rfl, rfl⟩
  simp only [Vector.getElem_set, eq_comm]

/-- Settles O26, on the three ranges of SP. -/
theorem returnPopsTheReturnAddress : Obligations.ReturnPopsTheReturnAddress := by
  refine ⟨⟨rfl, rfl⟩, fun s => ⟨fun k hk hpos => ?_, fun h0 => ?_, fun h15 => execRet_of_ge h15⟩⟩
  · have hret := execRet_of_pos (s := s) (by bv_omega) (by omega)
    refine ⟨_, hret, rfl, ?_, ?_, fun _ => rfl, rfl⟩
    · simp only [hk]
    · simp only [← hk]
      bv_omega
  · exact execRet_of_zero (BitVec.eq_of_toNat_eq h0)

/-- Settles O28: both skips compare Vx with the immediate. -/
theorem skipComparesWithTheImmediate : Obligations.SkipComparesWithTheImmediate := fun x kk s =>
  ⟨⟨encodes_ofNat (toNat_formatXK 0x3 x kk), exists_done_skipIf_beq (s.reg x) kk⟩,
    ⟨encodes_ofNat (toNat_formatXK 0x4 x kk), exists_done_skipIf_bne (s.reg x) kk⟩⟩

/-- Settles O29: both skips compare Vx with Vy. -/
theorem skipComparesTwoRegisters : Obligations.SkipComparesTwoRegisters := fun x y s =>
  ⟨⟨encodes_ofNat (toNat_formatXY 0x5 x y 0x0), exists_done_skipIf_beq (s.reg x) (s.reg y)⟩,
    ⟨encodes_ofNat (toNat_formatXY 0x9 x y 0x0), exists_done_skipIf_bne (s.reg x) (s.reg y)⟩⟩

/-- Settles O30: JP V0 writes PC only, with the sum of `toNat_jpV0_target`. -/
theorem jumpWithOffsetAddsRegisterZero : Obligations.JumpWithOffsetAddsRegisterZero := fun nnn s =>
  ⟨encodes_ofNat (toNat_formatA 0xB nnn), _, rfl, rfl, toNat_jpV0_target (s.reg 0) nnn, onlyPc_of_pc_write _ _⟩

end Machine
end Sys2Proof

/-! SUPPORT. Register loads, arithmetic, logic, shifts and the random byte (42_alu.md): what the two kinds of register
write change, the values and flags as numbers, and the obligations of these instructions. -/

namespace Sys2Proof
namespace Machine

section
variable {i : Instr} {s : State} {x y : Reg} {b f : Byte}

/-! ### The words 8xyn (30_encoding.md R66) -/

theorem encodes_8xyn (n : Nibble) (h : encode i = formatXY 0x8 x y n) :
    Encodes (BitVec.ofNat 16 (0x8000 + n.toNat + x.val * 256 + y.val * 16)) i := by
  have h8 : (0x8 : Nibble).toNat = 8 := rfl
  refine encodes_ofNat ?_
  rw [h, toNat_formatXY, h8]
  omega

/-! ### An instruction that writes registers only -/

theorem sameRegsBut_setReg : SameRegsBut [x] s (s.setReg x b) := fun r hr =>
  s.reg_setReg_of_ne x r b (List.ne_of_not_mem_cons hr)

theorem sameRegsBut_setFlagAndReg : SameRegsBut [x, VF] s (s.setFlagAndReg x f b) := by
  intro r hr
  obtain ⟨hx, hf⟩ : r ≠ x ∧ r ≠ VF := by simpa using hr
  rw [State.reg_setFlagAndReg, if_neg hx, if_neg hf]

/-- One register write that ends its Step. -/
theorem exists_done_setReg (s : State) (x : Reg) (b : Byte) :
    ∃ t, done (s.setReg x b) = .next t ∧ t.lastResult = .ok ∧ t.reg x = b ∧ OnlyRegs [x] s t :=
  ⟨_, done_eq _, rfl, s.reg_setReg_self x b, rfl, sameRegsBut_setReg, fun _ => rfl⟩

/-- One register write that ends its Step, with `g` any way to write the bits it stores. -/
theorem exists_done_setReg_bits {g : Nat → Bool} (hb : ∀ k, b.getLsbD k = g k) :
    ∃ t, done (s.setReg x b) = .next t ∧ t.lastResult = .ok ∧ (∀ k, (t.reg x).getLsbD k = g k) ∧
      OnlyRegs [x] s t := by
  obtain ⟨t, ht, hok, hx, honly⟩ := exists_done_setReg s x b
  exact ⟨t, ht, hok, fun k => by rw [hx, hb], honly⟩

/-- A flag and a result that end their Step: the flag shows unless the result is written over it (R112; D3). -/
theorem exists_done_setFlagAndReg (s : State) (x : Reg) (f b : Byte) :
    ∃ t, done (s.setFlagAndReg x f b) = .next t ∧ t.lastResult = .ok ∧ t.reg x = b ∧
      (x ≠ VF → t.reg VF = f) ∧ OnlyRegs [x, VF] s t := by
  refine ⟨_, done_eq _, rfl, ?_, fun hx => ?_, rfl, sameRegsBut_setFlagAndReg, fun _ => rfl⟩
  · exact (s.reg_setFlagAndReg x x b f).trans (if_pos rfl)
  · exact (s.reg_setFlagAndReg x VF b f).trans ((if_neg hx.symm).trans (if_pos rfl))

/-! ### Results and flags as numbers (R110, R116 to R120) -/

theorem flagByte_decide (p : Prop) [Decidable p] : flagByte (decide p) = if p then 1 else 0 := by
  simp only [flagByte, decide_eq_true_eq]

theorem toNat_byte_sub (a b : Byte) : (a - b).toNat = (a.toNat + 256 - b.toNat) % 256 := by
  rw [BitVec.toNat_sub]
  omega

theorem toNat_byte_ushiftRight_one (a : Byte) : (a >>> 1).toNat = a.toNat / 2 := by
  rw [BitVec.toNat_ushiftRight, Nat.shiftRight_eq_div_pow, pow_one]

theorem toNat_byte_shiftLeft_one (a : Byte) : (a <<< 1).toNat = a.toNat * 2 % 256 := by
  rw [BitVec.toNat_shiftLeft, Nat.shiftLeft_eq, pow_one]

/-- SUB and SUBN alike: the difference of two bytes in Vx, with the strict flag (R117, R119; D21). -/
theorem exists_done_difference (s : State) (x : Reg) (a b : Byte) :
    ∃ t, done (s.setFlagAndReg x (greaterFlag a b) (a - b)) = .next t ∧ t.lastResult = .ok ∧
      (t.reg x).toNat = (a.toNat + 256 - b.toNat) % 256 ∧
      (x ≠ VF → t.reg VF = if a.toNat > b.toNat then 1 else 0) ∧ OnlyRegs [x, VF] s t := by
  obtain ⟨t, ht, hok, hx, hf, honly⟩ := exists_done_setFlagAndReg s x (greaterFlag a b) (a - b)
  exact ⟨t, ht, hok, by rw [hx, toNat_byte_sub], fun h => (hf h).trans (flagByte_decide _), honly⟩

end

/-- Settles O31: each load is one register write. -/
theorem loadsSetTheRegister : Obligations.LoadsSetTheRegister :=
  ⟨fun x kk s => ⟨encodes_ofNat (toNat_formatXK 0x6 x kk), exists_done_setReg s x kk⟩,
    fun x y s => ⟨encodes_8xyn 0x0 rfl, exists_done_setReg s x (s.reg y)⟩⟩

/-- Settles O32: one register write, with the sum of two bytes. -/
theorem addImmediateWrapsWithoutFlag : Obligations.AddImmediateWrapsWithoutFlag := by
  intro x kk s
  obtain ⟨t, ht, hok, hx, honly⟩ := exists_done_setReg s x (s.reg x + kk)
  exact ⟨encodes_ofNat (toNat_formatXK 0x7 x kk), t, ht, hok, by rw [hx, BitVec.toNat_add], honly⟩

/-- Settles O33: one register write each, read bit by bit. -/
theorem logicIsBitwiseWithoutFlag : Obligations.LogicIsBitwiseWithoutFlag := fun _ _ _ =>
  ⟨⟨encodes_8xyn 0x1 rfl, exists_done_setReg_bits fun _ => BitVec.getLsbD_or⟩,
    ⟨encodes_8xyn 0x2 rfl, exists_done_setReg_bits fun _ => BitVec.getLsbD_and⟩,
    ⟨encodes_8xyn 0x3 rfl, exists_done_setReg_bits fun _ => BitVec.getLsbD_xor⟩⟩

/-- Settles O34: the carry, then the sum, of the old values. -/
theorem addSetsTheCarry : Obligations.AddSetsTheCarry := by
  intro x y s
  obtain ⟨t, ht, hok, hx, hf, honly⟩ :=
    exists_done_setFlagAndReg s x (carryFlag (s.reg x) (s.reg y)) (s.reg x + s.reg y)
  exact ⟨encodes_8xyn 0x4 rfl, t, ht, hok, by rw [hx, BitVec.toNat_add],
    fun h => (hf h).trans (flagByte_decide _), honly⟩

/-- Settles O35: the two differences of the old values. -/
theorem subtractionsSetTheStrictFlag : Obligations.SubtractionsSetTheStrictFlag := fun x y s =>
  ⟨⟨encodes_8xyn 0x5 rfl, exists_done_difference s x (s.reg x) (s.reg y)⟩,
    ⟨encodes_8xyn 0x7 rfl, exists_done_difference s x (s.reg y) (s.reg x)⟩⟩

/-- Settles O36: the lost bit, then the shifted value; `y` enters the word only. -/
theorem shiftsMoveTheLostBitToTheFlag : Obligations.ShiftsMoveTheLostBitToTheFlag := by
  intro x y s
  refine ⟨⟨encodes_8xyn 0x6 rfl, ?_⟩, ⟨encodes_8xyn 0xE rfl, ?_⟩⟩
  · obtain ⟨t, ht, hok, hx, hf, honly⟩ := exists_done_setFlagAndReg s x (shrFlag (s.reg x)) (s.reg x >>> 1)
    exact ⟨t, ht, hok, by rw [hx, toNat_byte_ushiftRight_one], fun h => by rw [hf h, toNat_shrFlag], honly⟩
  · obtain ⟨t, ht, hok, hx, hf, honly⟩ := exists_done_setFlagAndReg s x (shlFlag (s.reg x)) (s.reg x <<< 1)
    exact ⟨t, ht, hok, by rw [hx, toNat_byte_shiftLeft_one], fun h => by rw [hf h, toNat_shlFlag], honly⟩

/-- Settles O37: one register write and one byte counted; a masked byte has no bit outside its mask. -/
theorem randomIsMasked : Obligations.RandomIsMasked := by
  intro x kk s
  have hx := s.reg_setReg_self x (Config.rnd s.draws &&& kk)
  refine ⟨encodes_ofNat (toNat_formatXK 0xC x kk), _, rfl, rfl, hx, fun k hk => ?_, rfl, sameRegsBut_setReg,
    fun _ => rfl, rfl⟩
  exact (congrArg (BitVec.getLsbD · k) hx).trans (by rw [BitVec.getLsbD_and, hk, Bool.and_false])

end Machine
end Sys2Proof

/-! SUPPORT. Index register and memory instructions (43_index_memory.md): the two sides of the range check, what LD I,
ADD I and LD F write, what LD Vx,[I] loads, and the obligations of these instructions. -/

namespace Sys2Proof
namespace Machine

section
variable {i : Instr} {s t u : State} {x : Reg}

/-! ### The words Fxkk (30_encoding.md R66) -/

theorem encodes_Fxkk (low : Byte) (h : encode i = formatX 0xF x low) :
    Encodes (BitVec.ofNat 16 (0xF000 + low.toNat + x.val * 256)) i := by
  have hF : (0xF : Nibble).toNat = 15 := rfl
  refine encodes_ofNat ?_
  rw [h, toNat_formatX, hF]
  omega

/-! ### The two sides of the range check (20_memory.md R46) -/

theorem checkRange_done_of_fit {k : Nat} (hfit : s.i.toNat + k ≤ Config.memSize) :
    checkRange k s (done u) = .next { u with lastResult := .ok } := by
  rw [Config.memSize] at hfit
  rw [checkRange_eq, done_eq, if_pos (by omega)]

theorem checkRange_of_not_fit {k : Nat} {body : Result} (hk : 0 < k) (hout : Config.memSize < s.i.toNat + k) :
    checkRange k s body = .next { s with lastResult := .fault (.memOutOfRange s.i k) } := by
  rw [Config.memSize] at hout
  rw [checkRange_eq, if_neg (by omega)]

/-- The x + 1 bytes of LD [I],Vx and LD Vx,[I] fit in memory when the last one does (R130). -/
theorem regCount_fits (hfit : s.i.toNat + x.val ≤ 0xFFF) : s.i.toNat + regCount x ≤ Config.memSize :=
  Nat.succ_le_succ hfit

theorem regCount_not_fits (hout : 0xFFF < s.i.toNat + x.val) : Config.memSize < s.i.toNat + regCount x :=
  Nat.succ_lt_succ hout

/-! ### An instruction that writes I only -/

/-- One write of I that ends its Step, with `n` any way to write the number stored. -/
theorem exists_done_setI {a : Word} {n : Nat} (ha : a.toNat = n) :
    ∃ t, done { s with i := a } = .next t ∧ t.lastResult = .ok ∧ t.i.toNat = n ∧ OnlyI s t :=
  ⟨_, done_eq _, rfl, ha, rfl, fun _ => rfl⟩

/-- The mask of LD I keeps a 12-bit address whole (R131). -/
theorem toNat_addrOf_and_mask (nnn : Addr12) : (addrOf nnn &&& 0xFFF).toNat = nnn.toNat := by
  have hmask : (0xFFF : Word).toNat = 2 ^ 12 - 1 := rfl
  rw [BitVec.toNat_and, toNat_addrOf, hmask, Nat.and_two_pow_sub_one_eq_mod, Nat.mod_eq_of_lt nnn.isLt]

/-- The sum of ADD I wraps at 16 bits only (R132; D22). -/
theorem toNat_add_setWidth (a : Word) (b : Byte) : (a + b.setWidth 16).toNat = (a.toNat + b.toNat) % 65536 := by
  rw [BitVec.toNat_add, BitVec.toNat_setWidth_of_le (by decide)]

/-! ### LD [I],Vx and LD Vx,[I] -/

/-- LD [I],Vx executes only when its range fits, and leaves I (R134, R137). -/
theorem fit_and_i_eq_of_exec_storeRegs (h : exec (.storeRegs x) s = .next t) (hok : t.lastResult = .ok) :
    s.i.toNat + x.val ≤ 0xFFF ∧ t.i = s.i := by
  obtain ⟨hfit, rfl⟩ | rfl := checkRange_done_eq_next h
  · exact ⟨inRange_regCount.1 (inRange_iff.2 hfit), rfl⟩
  · cases hok

/-- LD Vx,[I] whose range fits loads V0 to Vx and changes nothing else (R135). -/
theorem exists_exec_loadRegs (hfit : s.i.toNat + x.val ≤ 0xFFF) :
    ∃ t, exec (.loadRegs x) s = .next t ∧ t.lastResult = .ok ∧
      (∀ j : Reg, j ≤ x → t.reg j = s.mem.read (s.i.toNat + j.val)) ∧ OnlyRegs (regsUpTo x) s t := by
  refine ⟨_, checkRange_done_of_fit (regCount_fits hfit), rfl, fun j hj => ?_, rfl, fun j hj => ?_, fun _ => rfl⟩
  · exact State.getElem_loadedRegs.trans (if_pos hj)
  · exact State.getElem_loadedRegs.trans (if_neg fun hle => hj (mem_regsUpTo.2 hle))

end

/-- Settles O42: the store leaves I, so the load's range fits as the store's did and its bytes are those stored. -/
theorem loadAfterStoreRestoresTheRegisters : Obligations.LoadAfterStoreRestoresTheRegisters := by
  intro x s t v hwf hstore hok
  obtain ⟨hfit, hi⟩ := fit_and_i_eq_of_exec_storeRegs hstore hok
  obtain ⟨hbytes, -⟩ := read_of_exec_storeRegs hwf hstore hok
  rw [← hi] at hfit hbytes
  obtain ⟨u, hload, huok, hloaded, -, hkept, -⟩ := exists_exec_loadRegs (s := { t with v := v }) hfit
  refine ⟨u, hload, huok, fun j hj => (hloaded j hj).trans (hbytes j hj), fun j hj => hkept j ?_⟩
  exact fun hmem => Nat.not_le.2 hj (mem_regsUpTo.1 hmem)

/-- Settles O38: each instruction is one write of I. -/
theorem indexInstructionsSetI : Obligations.IndexInstructionsSetI :=
  ⟨fun nnn _ => ⟨encodes_ofNat (toNat_formatA 0xA nnn), exists_done_setI (toNat_addrOf_and_mask nnn)⟩,
    fun x s => ⟨encodes_Fxkk 0x1E rfl, exists_done_setI (toNat_add_setWidth s.i (s.reg x))⟩,
    fun x s => ⟨encodes_Fxkk 0x29 rfl, exists_done_setI (toNat_glyphAddr (s.reg x))⟩⟩

/-- Settles O39, on the two sides of the range check. -/
theorem digitsAreStoredAtI : Obligations.DigitsAreStoredAtI := by
  intro x s hwf
  refine ⟨encodes_Fxkk 0x33 rfl, fun hfit => ?_, fun hout => ?_⟩
  · have hexec : exec (.ldB x) s = _ := checkRange_done_of_fit (Nat.succ_le_succ hfit)
    obtain ⟨⟨h0, h1, h2⟩, hframe⟩ := read_of_exec_ldB hwf hexec rfl
    exact ⟨_, hexec, rfl, h0, h1, h2, rfl, hframe⟩
  · exact checkRange_of_not_fit (Nat.succ_pos 2) (Nat.succ_lt_succ hout)

/-- Settles O40, on the two sides of the range check. -/
theorem registersAreStoredAtI : Obligations.RegistersAreStoredAtI := by
  intro x s hwf
  refine ⟨encodes_Fxkk 0x55 rfl, fun hfit => ?_, fun hout => ?_⟩
  · have hexec : exec (.storeRegs x) s = _ := checkRange_done_of_fit (regCount_fits hfit)
    obtain ⟨hbytes, hframe⟩ := read_of_exec_storeRegs hwf hexec rfl
    exact ⟨_, hexec, rfl, hbytes, rfl, hframe⟩
  · exact checkRange_of_not_fit (Nat.succ_pos x.val) (regCount_not_fits hout)

/-- Settles O41, on the two sides of the range check. -/
theorem registersAreLoadedFromI : Obligations.RegistersAreLoadedFromI := fun x _ =>
  ⟨encodes_Fxkk 0x65 rfl, exists_exec_loadRegs,
    fun hout => checkRange_of_not_fit (Nat.succ_pos x.val) (regCount_not_fits hout)⟩

end Machine
end Sys2Proof

/-! SUPPORT. CLS and DRW (44_display.md): the cells under a sprite and the pixels the drawing loops set are the same
cells, what one draw leaves, and the obligations of the display. -/

namespace Sys2Proof
namespace Machine

section
variable {s t u : State} {x y : Reg} {n : Nibble} {px py k cx cy : Nat}

/-! ### Wrapped coordinates (R142) -/

/-- Coordinates that wrap to one cell read alike. -/
theorem FrameBuffer.pixel_congr (fb : FrameBuffer) {p q : Nat × Nat} (h : SameCell p q) :
    fb.pixel p.1 p.2 = fb.pixel q.1 q.2 := by
  simp only [FrameBuffer.pixel, h.1, h.2]

theorem FrameBuffer.pixel_mod (fb : FrameBuffer) (x y : Nat) : fb.pixel (x % 64) (y % 32) = fb.pixel x y :=
  fb.pixel_congr (p := (x % 64, y % 32)) (q := (x, y)) ⟨Nat.mod_mod x 64, Nat.mod_mod y 32⟩

theorem FrameBuffer.toggle_mod (fb : FrameBuffer) (x y : Nat) : fb.toggle (x % 64) (y % 32) = fb.toggle x y := by
  simp only [FrameBuffer.toggle, FrameBuffer.pixel_mod, Nat.mod_mod]

theorem Drawn.setPixel_mod (d : Drawn) (x y : Nat) : d.setPixel (x % 64) (y % 32) = d.setPixel x y := by
  simp only [Drawn.setPixel, FrameBuffer.toggle_mod, FrameBuffer.pixel_mod]

/-! ### The cells under a sprite (R145, R146) -/

theorem getLsbD_iff_toNat (b : Byte) (k : Nat) : b.getLsbD k = true ↔ b.toNat / 2 ^ k % 2 = 1 := by
  rw [← BitVec.testBit_toNat, Nat.testBit_eq_decide_div_mod_eq, decide_eq_true_eq]

/-- The cell that coordinates wrap to lies under the sprite exactly when the drawing loops set a pixel of that cell. -/
theorem covered_mod_iff : Covered s px py k (cx % 64) (cy % 32) ↔
    ∃ p ∈ spritePixels px py (s.mem.readBytes s.i.toNat k), SameCell (cx, cy) p := by
  constructor
  · rintro ⟨row, hrow, col, hcol, hbit, hx, hy⟩
    have hlen : row < (s.mem.readBytes s.i.toNat k).length := by rwa [Memory.length_readBytes]
    refine ⟨(px + col, py + row), mem_spritePixels.2 ⟨row, hlen, col, hcol, ?_, rfl⟩, hx.symm, hy.symm⟩
    rw [Memory.getElem_readBytes, getLsbD_iff_toNat]
    exact hbit
  · rintro ⟨p, hp, hx, hy⟩
    obtain ⟨row, hlen, col, hcol, hbit, rfl⟩ := mem_spritePixels.1 hp
    rw [Memory.getElem_readBytes, getLsbD_iff_toNat] at hbit
    exact ⟨row, by rwa [Memory.length_readBytes] at hlen, col, hcol, hbit, hx.symm, hy.symm⟩

/-- A covered cell is named by wrapped coordinates already. -/
theorem Covered.wrapped (h : Covered s px py k cx cy) : Covered s px py k (cx % 64) (cy % 32) := by
  obtain ⟨row, hrow, col, hcol, hbit, rfl, rfl⟩ := h
  exact ⟨row, hrow, col, hcol, hbit, (Nat.mod_mod _ 64).symm, (Nat.mod_mod _ 32).symm⟩

/-- The covered cells depend on I and the sprite's bytes only. -/
theorem covered_congr (hi : u.i = s.i)
    (hread : ∀ row < k, u.mem.read (s.i.toNat + row) = s.mem.read (s.i.toNat + row)) :
    Covered u px py k cx cy ↔ Covered s px py k cx cy := by
  rw [Covered, hi]
  exact exists_congr fun row => and_congr_right fun hrow => by rw [hread row hrow]

/-! ### What one draw does to the buffer, and the collision it finds (R146) -/

/-- The k-row sprite at I drawn at (px, py). -/
def State.drawAt (s : State) (px py k : Nat) : Drawn := s.fb.drawSprite px py (s.mem.readBytes s.i.toNat k)

theorem State.pixel_drawAt_of_covered (hk : k ≤ 32) (h : Covered s px py k (cx % 64) (cy % 32)) :
    (s.drawAt px py k).fb.pixel cx cy = !s.fb.pixel cx cy := by
  rw [State.drawAt, (FrameBuffer.drawSprite_spec _ _ _ _ (by rwa [Memory.length_readBytes])).1,
    decide_eq_true (covered_mod_iff.1 h), Bool.xor_true]

theorem State.pixel_drawAt_of_not_covered (hk : k ≤ 32) (h : ¬ Covered s px py k (cx % 64) (cy % 32)) :
    (s.drawAt px py k).fb.pixel cx cy = s.fb.pixel cx cy := by
  rw [State.drawAt, (FrameBuffer.drawSprite_spec _ _ _ _ (by rwa [Memory.length_readBytes])).1,
    decide_eq_false (mt covered_mod_iff.2 h), Bool.xor_false]

theorem State.collided_drawAt_iff (hk : k ≤ 32) :
    (s.drawAt px py k).collided = true ↔ ∃ cx cy, Covered s px py k cx cy ∧ s.fb.pixel cx cy = true := by
  rw [State.drawAt, (FrameBuffer.drawSprite_spec _ _ _ _ (by rwa [Memory.length_readBytes])).2, decide_eq_true_eq]
  constructor
  · rintro ⟨p, hp, hset⟩
    exact ⟨p.1 % 64, p.2 % 32, covered_mod_iff.2 ⟨p, hp, rfl, rfl⟩, (s.fb.pixel_mod p.1 p.2).trans hset⟩
  · rintro ⟨cx, cy, hcov, hset⟩
    obtain ⟨p, hp, hcell⟩ := covered_mod_iff.1 hcov.wrapped
    exact ⟨p, hp, (s.fb.pixel_congr hcell).symm.trans hset⟩

/-! ### DRW (R146) -/

/-- A sprite has at most 15 rows, so none of them wraps onto another. -/
theorem rows_le (n : Nibble) : n.toNat ≤ 32 := by omega

/-- The state DRW leaves when it executes. -/
def State.afterDrw (s : State) (x y : Reg) (n : Nibble) : State :=
  let d := s.drawAt (s.reg x).toNat (s.reg y).toNat n.toNat
  { { s with fb := d.fb }.setReg VF (flagByte d.collided) with lastResult := .ok }

theorem exec_drw_of_inMemory (h : BytesInMemory s n.toNat) : exec (.drw x y n) s = .next (s.afterDrw x y n) :=
  (checkRange_eq _ _ _).trans (if_pos h)

theorem exec_drw_of_not_inMemory (h : ¬ BytesInMemory s n.toNat) :
    exec (.drw x y n) s = .next { s with lastResult := .fault (.memOutOfRange s.i n.toNat) } :=
  (checkRange_eq _ _ _).trans (if_neg h)

@[simp] theorem State.fb_afterDrw :
    (s.afterDrw x y n).fb = (s.drawAt (s.reg x).toNat (s.reg y).toNat n.toNat).fb := rfl

theorem State.reg_VF_afterDrw :
    (s.afterDrw x y n).reg VF = flagByte (s.drawAt (s.reg x).toNat (s.reg y).toNat n.toNat).collided :=
  State.reg_setReg_self _ VF _

theorem flagByte_eq_one_iff (c : Bool) : flagByte c = 1 ↔ c = true := by cases c <;> decide

/-- VF is 1 exactly when a covered cell was set. -/
theorem State.reg_VF_afterDrw_eq_one_iff : (s.afterDrw x y n).reg VF = 1 ↔
    ∃ cx cy, Covered s (s.reg x).toNat (s.reg y).toNat n.toNat cx cy ∧ s.fb.pixel cx cy = true := by
  rw [State.reg_VF_afterDrw, flagByte_eq_one_iff, State.collided_drawAt_iff (rows_le n)]

/-- VF is 0 when no covered cell was set. -/
theorem State.reg_VF_afterDrw_eq_zero
    (h : ∀ cx cy, Covered s (s.reg x).toNat (s.reg y).toNat n.toNat cx cy → s.fb.pixel cx cy = false) :
    (s.afterDrw x y n).reg VF = 0 := by
  have hnone : (s.drawAt (s.reg x).toNat (s.reg y).toNat n.toNat).collided = false := by
    rw [← Bool.not_eq_true, State.collided_drawAt_iff (rows_le n)]
    rintro ⟨cx, cy, hcov, hset⟩
    exact Bool.false_ne_true ((h cx cy hcov).symm.trans hset)
  rw [State.reg_VF_afterDrw, hnone]
  rfl

end

/-- Settles O45, on the two sides of the range check. -/
theorem drawTogglesTheCoveredCells : Obligations.DrawTogglesTheCoveredCells := by
  intro x y n s
  refine ⟨encodes_ofNat (toNat_formatXY 0xD x y n), fun hin => ?_, exec_drw_of_not_inMemory⟩
  refine ⟨_, exec_drw_of_inMemory hin, rfl, fun cx hcx cy hcy => ?_, State.reg_VF_afterDrw_eq_one_iff.2,
    State.reg_VF_afterDrw_eq_zero, sameRegsBut_setReg, fun _ => rfl, rfl⟩
  have hx : cx % 64 = cx := Nat.mod_eq_of_lt hcx
  have hy : cy % 32 = cy := Nat.mod_eq_of_lt hcy
  exact ⟨fun hc => State.pixel_drawAt_of_covered (rows_le n) hc.wrapped,
    fun hc => State.pixel_drawAt_of_not_covered (rows_le n) (by rwa [hx, hy])⟩

/-- Settles O46: both draws cover the same cells, so each cell is toggled twice or not at all, and a covered cell is set
before the second draw when it was unset before the first. -/
theorem secondDrawRestoresTheBuffer : Obligations.SecondDrawRestoresTheBuffer := by
  intro x y x' y' n s t u hin h hfb hi hx hy hread
  rw [exec_drw_of_inMemory hin] at h
  cases h
  have hin' : BytesInMemory u n.toNat := by rwa [BytesInMemory, hi]
  have hcov : ∀ cx cy, Covered u (u.reg x').toNat (u.reg y').toNat n.toNat cx cy ↔
      Covered s (s.reg x).toNat (s.reg y).toNat n.toNat cx cy := by
    rw [hx, hy]
    exact fun _ _ => covered_congr hi hread
  refine ⟨_, exec_drw_of_inMemory hin', rfl, fun cx cy => ?_, State.reg_VF_afterDrw_eq_one_iff,
    State.reg_VF_afterDrw_eq_one_iff.trans (exists₂_congr fun cx cy => ?_)⟩
  · rw [State.fb_afterDrw] at hfb ⊢
    by_cases hc : Covered s (s.reg x).toNat (s.reg y).toNat n.toNat (cx % 64) (cy % 32)
    · rw [State.pixel_drawAt_of_covered (rows_le n) ((hcov _ _).2 hc), hfb,
        State.pixel_drawAt_of_covered (rows_le n) hc, Bool.not_not]
    · rw [State.pixel_drawAt_of_not_covered (rows_le n) (mt (hcov _ _).1 hc), hfb,
        State.pixel_drawAt_of_not_covered (rows_le n) hc]
  · rw [hcov]
    refine and_congr_right fun hc => ?_
    rw [hfb, State.fb_afterDrw, State.pixel_drawAt_of_covered (rows_le n) hc.wrapped, Bool.not_eq_true']

/-- Settles O43: CLS writes the blank buffer only. -/
theorem clearUnsetsEveryCell : Obligations.ClearUnsetsEveryCell :=
  ⟨⟨rfl, rfl⟩, fun _ => ⟨_, rfl, rfl, FrameBuffer.pixel_blank, fun _ => rfl, rfl⟩⟩

/-- Settles O44: SetPixel is one toggle, and reads and writes its coordinates wrapped. -/
theorem setPixelTogglesTheWrappedCell : Obligations.SetPixelTogglesTheWrappedCell := fun d x y cx cy =>
  ⟨d.fb.pixel_toggle x y cx cy, rfl, (d.fb.pixel_mod x y).symm, (d.setPixel_mod x y).symm⟩

end Machine
end Sys2Proof

/-! SUPPORT. Keypad and timer instructions (45_keypad_timers.md): a key skip on the key Vx names, the two sides of
LD Vx,K, and the obligations of these instructions. -/

namespace Sys2Proof
namespace Machine

section
variable {i : Instr} {s : State} {x : Reg} {k : Fin 16}

/-! ### The words of format X (30_encoding.md R63) -/

theorem encodes_formatX (n1 : Nibble) (low : Byte) (h : encode i = formatX n1 x low) :
    Encodes (BitVec.ofNat 16 (n1.toNat * 4096 + low.toNat + x.val * 256)) i := by
  refine encodes_ofNat ?_
  rw [h, toNat_formatX, Nat.add_right_comm]

/-! ### SKP and SKNP -/

/-- A key skip on the key `k` that Vx names, with `p` any way to write the PC it leaves (R150, R151). -/
theorem exists_skipOnKey {wanted : Bool} {p : Word} (hk : (s.reg x).toNat = k.val)
    (hp : (if s.keyDown k = wanted then s.pc + 2 else s.pc) = p) :
    ∃ t, skipOnKey x s wanted = .next t ∧ t.lastResult = .ok ∧ t.pc = p ∧ OnlyPc s t := by
  have hlt : (s.reg x).toNat < 16 := hk.trans_lt k.isLt
  obtain rfl : ⟨(s.reg x).toNat, hlt⟩ = k := Fin.ext hk
  rw [skipOnKey_of_lt hlt, ← done_eq]
  exact exists_done_skipIf (by simpa only [beq_iff_eq] using hp)

/-! ### LD Vx,K (R153) -/

theorem exec_ldVxK_of_leastKey (h : s.leastKey = some k) :
    exec (.ldVxK x) s = done (s.setReg x (BitVec.ofNat 8 k.val)) := by
  rw [exec, execLdVxK, h]

theorem exec_ldVxK_of_noKey (h : ∀ k, s.keyDown k = false) :
    exec (.ldVxK x) s = .next { s with pc := s.pc - 2, lastResult := .waitingForKey } := by
  rw [exec, execLdVxK, State.leastKey_eq_none.2 h]
  rfl

/-- The poll takes back the advance of the fetch, so the Step leaves PC at the instruction (D9). -/
theorem exec_ldVxK_advance_of_noKey (h : ∀ k, s.keyDown k = false) :
    exec (.ldVxK x) s.advance = .next { s with lastResult := .waitingForKey } := by
  rw [exec_ldVxK_of_noKey (s := s.advance) h, State.advance, BitVec.add_sub_cancel]

end

/-- Settles O47, on the two sides of the key index check. -/
theorem keySkipsReadTheKeyLevel : Obligations.KeySkipsReadTheKeyLevel := by
  refine fun x s => ⟨encodes_formatX 0xE 0x9E rfl, encodes_formatX 0xE 0xA1 rfl, fun k hk => ⟨?_, ?_⟩, fun hout => ?_⟩
  · exact exists_skipOnKey hk rfl
  · exact exists_skipOnKey hk (by simp only [← Bool.not_eq_true, ite_not, State.keyDown])
  · exact ⟨skipOnKey_of_ge hout, skipOnKey_of_ge hout⟩

/-- Settles O48: the least pressed key is one register write, and a Step that finds none undoes its advance. -/
theorem waitForKeyPollsAndRetries : Obligations.WaitForKeyPollsAndRetries := by
  refine fun x s => ⟨encodes_Fxkk 0x0A rfl, fun k hdown hleast => ?_, fun hnone => ?_⟩
  · obtain ⟨t, ht, hok, hx, honly⟩ := exists_done_setReg s x (BitVec.ofNat 8 k.val)
    refine ⟨t, (exec_ldVxK_of_leastKey (State.leastKey_eq_some.2 ⟨hdown, hleast⟩)).trans ht, hok, ?_, honly⟩
    rw [hx, BitVec.toNat_ofNat]
    omega
  · exact ⟨exec_ldVxK_of_noKey hnone, fun w hp hpc hw hi =>
      (stepRunsTheDecodedInstruction s w _ hp hpc hw hi).trans (exec_ldVxK_advance_of_noKey hnone)⟩

/-- Settles O49: LD Vx,DT is one register write, the other two are one write of a timer. -/
theorem timerInstructionsMoveTheByte : Obligations.TimerInstructionsMoveTheByte := fun x s =>
  ⟨⟨encodes_Fxkk 0x07 rfl, exists_done_setReg s x s.dt⟩,
    ⟨encodes_Fxkk 0x15 rfl, _, rfl, rfl, rfl, fun _ => rfl, rfl⟩,
    ⟨encodes_Fxkk 0x18 rfl, _, rfl, rfl, rfl, fun _ => rfl, rfl⟩⟩

end Machine
end Sys2Proof

/-! SUPPORT. No instruction reads the debug facility (60_exceptions.md R182): with another `Brk` and `LastBreak` each
answers what it answers with these, but for the two. -/

namespace Sys2Proof
namespace Machine

/-- The state with another breakpoint set and another last address paused at. -/
def State.withBreaks (brk : List Word) (last : Option Word) (s : State) : State :=
  { s with brk := brk, lastBreak := last }

/-- An answer with its next state, if it has one, changed by `f`. -/
def mapNext (f : State → State) : Result → Result
  | .next t => .next (f t)
  | .fault r => .fault r
  | .refused r => .refused r

section
variable {s u : State} {x : Reg} {brk : List Word} {last : Option Word}

/-! ### The shared operations with another `Brk` and `LastBreak` -/

theorem State.withBreaks_skipIf (c : Bool) : (s.skipIf c).withBreaks brk last = (s.withBreaks brk last).skipIf c := by
  cases c <;> rfl

theorem checkRange_withBreaks (k : Nat) :
    mapNext (State.withBreaks brk last) (checkRange k s (done u)) =
      checkRange k (s.withBreaks brk last) (done (u.withBreaks brk last)) := by
  rw [checkRange, apply_ite (mapNext _)]
  rfl

theorem skipOnKey_withBreaks (wanted : Bool) :
    mapNext (State.withBreaks brk last) (skipOnKey x s wanted) = skipOnKey x (s.withBreaks brk last) wanted := by
  by_cases hk : (s.reg x).toNat < 16
  · rw [skipOnKey_of_lt hk, skipOnKey_of_lt (s := s.withBreaks brk last) hk, ← State.withBreaks_skipIf]
    rfl
  · rw [skipOnKey_of_ge (Nat.not_lt.1 hk), skipOnKey_of_ge (s := s.withBreaks brk last) (Nat.not_lt.1 hk)]
    rfl

theorem execRet_withBreaks : mapNext (State.withBreaks brk last) (execRet s) = execRet (s.withBreaks brk last) := by
  rw [execRet, apply_ite (mapNext _), apply_dite (mapNext _)]
  rfl

theorem execCall_withBreaks (nnn : Addr12) :
    mapNext (State.withBreaks brk last) (execCall nnn s) = execCall nnn (s.withBreaks brk last) := by
  rw [execCall, apply_dite (mapNext _)]
  rfl

theorem execLdVxK_withBreaks :
    mapNext (State.withBreaks brk last) (execLdVxK x s) = execLdVxK x (s.withBreaks brk last) := by
  have hk : (s.withBreaks brk last).leastKey = s.leastKey := rfl
  rw [execLdVxK, execLdVxK, hk]
  cases s.leastKey with
  | some k => rfl
  | none => rfl

/-- Every instruction commutes with a change of `Brk` and `LastBreak`. -/
theorem exec_withBreaks (i : Instr) (s : State) :
    mapNext (State.withBreaks brk last) (exec i s) = exec i (s.withBreaks brk last) := by
  cases i with
  | ret => exact execRet_withBreaks
  | call nnn => exact execCall_withBreaks nnn
  | seImm | sneImm | seReg | sneReg => exact congrArg done (State.withBreaks_skipIf _)
  | drw | ldB | storeRegs | loadRegs => exact checkRange_withBreaks _
  | skp | sknp => exact skipOnKey_withBreaks _
  | ldVxK => exact execLdVxK_withBreaks
  | _ => rfl

end

/-- Settles O19, from `exec_withBreaks` at the state answered. -/
theorem breakpointsAreInvisibleToInstructions : Obligations.BreakpointsAreInvisibleToInstructions := by
  intro i s t brk last h
  exact (exec_withBreaks i s).symm.trans (congrArg (mapNext (State.withBreaks brk last)) h)

end Machine
end Sys2Proof

/-! SUPPORT. The handler faults (60_exceptions.md R163): the condition and the information of each check. -/

namespace Sys2Proof
namespace Machine

section
variable {s t u : State} {x : Reg} {kind : FaultKind}

/-! ### When each check fails -/

theorem execRet_faults_iff (h : execRet s = .next t) :
    t.lastResult = .fault kind ↔ s.sp = 0 ∧ kind = .stackUnderflow := by
  by_cases h0 : s.sp = 0
  · cases (execRet_of_zero h0).symm.trans h
    simp [h0, eq_comm]
  by_cases h16 : s.sp.toNat < 16
  · cases (execRet_of_pos h0 h16).symm.trans h
    exact iff_of_false (by simp) fun hz => h0 hz.1
  · cases (execRet_of_ge (Nat.not_lt.1 h16)).symm.trans h

theorem execCall_faults_iff {nnn : Addr12} (h : execCall nnn s = .next t) :
    t.lastResult = .fault kind ↔ 15 ≤ s.sp.toNat ∧ kind = .stackOverflow s.sp := by
  by_cases h15 : s.sp.toNat < 15
  · cases (execCall_of_lt h15).symm.trans h
    simp [h15]
  · cases (execCall_of_ge (Nat.not_lt.1 h15)).symm.trans h
    simp [Nat.not_lt.1 h15, eq_comm]

/-- The range check fails when there is a byte to reach and the last one lies above 0xFFF (20_memory.md R46). -/
theorem checkRange_faults_iff {k : Nat} (h : checkRange k s (done u) = .next t) :
    t.lastResult = .fault kind ↔ (1 ≤ k ∧ 0xFFF < s.i.toNat + k - 1) ∧ kind = .memOutOfRange s.i k := by
  rw [checkRange_eq, done_eq] at h
  split at h
  next hfit =>
    cases h
    have hin : ¬ (1 ≤ k ∧ 0xFFF < s.i.toNat + k - 1) := by omega
    simp [hin]
  next hout =>
    cases h
    have hout' : 1 ≤ k ∧ 0xFFF < s.i.toNat + k - 1 := by omega
    simp [hout', eq_comm]

theorem skipOnKey_faults_iff {wanted : Bool} (h : skipOnKey x s wanted = .next t) :
    t.lastResult = .fault kind ↔ 15 < (s.reg x).toNat ∧ kind = .keyIndexOutOfRange (s.reg x) := by
  by_cases hk : (s.reg x).toNat < 16
  · cases (skipOnKey_of_lt hk).symm.trans h
    simp [Nat.le_of_lt_succ hk]
  · have hk' : 15 < (s.reg x).toNat := Nat.not_lt.1 hk
    cases (skipOnKey_of_ge hk').symm.trans h
    simp [hk', eq_comm]

/-- LD Vx,K waits, and does not fault. -/
theorem execLdVxK_ne_fault (h : execLdVxK x s = .next t) : t.lastResult ≠ .fault kind := by
  rw [execLdVxK] at h
  split at h
  · cases h; simp
  · cases h; simp

/-- A fault leaves everything but the result as it was. -/
theorem eq_of_exec_fault {i : Instr} (h : exec i s = .next t) (hf : t.lastResult = .fault kind) :
    t = { s with lastResult := .fault kind } := by
  obtain hok | ⟨-, -, -, rfl⟩ | ⟨_, rfl⟩ := exec_result h
  · cases hok.symm.trans hf
  · cases hf
  · cases hf
    rfl

end

/-- Settles O12: an instruction without a check answers another result, and one with a check faults when it fails. -/
theorem handlerFaultsAreThoseOfTheTable : Obligations.HandlerFaultsAreThoseOfTheTable := by
  refine fun i s t kind h => ⟨?_, eq_of_exec_fault h⟩
  cases i with
  | call => simpa using execCall_faults_iff h
  | ret => simpa using execRet_faults_iff h
  | drw => simpa [and_assoc] using checkRange_faults_iff h
  | ldB => simpa using checkRange_faults_iff h
  | storeRegs | loadRegs => simpa [regCount] using checkRange_faults_iff h
  | skp | sknp => simpa using skipOnKey_faults_iff h
  | ldVxK => simpa using execLdVxK_ne_fault h
  | _ =>
    cases h
    simp

end Machine
end Sys2Proof

/-! SUPPORT. The host's operations (60_exceptions.md R171 to R183): what each changes, and that each answers and keeps
the invariant. -/

namespace Sys2Proof
namespace Machine

section
variable {i : Instr} {s u : State} {k : Nat} {down : Bool}

/-! ### Timers and keys -/

/-- The floored countdown is subtraction on the naturals (R172, R173). -/
theorem toNat_countDown (b : Byte) : (countDown b).toNat = b.toNat - 1 := by
  rw [countDown]
  split
  next h0 => rw [h0]; rfl
  next h0 => bv_omega

theorem writeKey_of_lt (hk : k < 16) : writeKey k down s = { s with key := s.key.set k down } := dif_pos hk

theorem writeKey_of_ge (hk : 16 ≤ k) : writeKey k down s = s := dif_neg (Nat.not_lt.2 hk)

theorem getElem_key_writeKey (hk : k < 16) (j : Fin 16) :
    (writeKey k down s).key[j.val] = if j.val = k then down else s.key[j.val] := by
  simp only [writeKey_of_lt hk, Vector.getElem_set, eq_comm (a := k)]

/-! ### The breakpoint set -/

theorem mem_brk_setBreak {a b : Word} {flag : Bool} :
    b ∈ (setBreak a flag s).brk ↔ if b = a then flag = true else b ∈ s.brk := by
  cases flag with
  | true => simp [setBreak, mem_addAddr, or_iff_not_imp_left]
  | false => simp [setBreak, mem_removeAddr]

theorem risingAddrs_brk_setBreak {a : Word} {flag : Bool} (h : risingAddrs s.brk = true) :
    risingAddrs (setBreak a flag s).brk = true := by
  cases flag with
  | true => exact risingAddrs_addAddr h
  | false => exact risingAddrs_removeAddr h

/-! ### The linear snapshot (R180) -/

/-- The linear layout is the rows from the bottom up, one after the other. -/
theorem linearSnapshot_eq (s : State) : linearSnapshot s = s.fb.reverse.flatten.toList := by
  simp [linearSnapshot, Vector.flatten, Vector.toList, Function.comp_def]

theorem length_linearSnapshot (s : State) : (linearSnapshot s).length = 2048 := by
  rw [linearSnapshot_eq, Vector.length_toList]

/-- Index (31 − y) · 64 + x lies in row 31 − y from the bottom, which is row y from the top. -/
theorem getElem?_linearSnapshot {x y : Nat} (hx : x < 64) (hy : y < 32) :
    (linearSnapshot s)[(31 - y) * 64 + x]? = some (s.fb.pixel x y) := by
  have hlt : (31 - y) * 64 + x < 32 * 64 := by omega
  have hrow : ((31 - y) * 64 + x) / 64 = 31 - y := by omega
  have hcol : ((31 - y) * 64 + x) % 64 = x := by omega
  have hflip : 32 - 1 - (31 - y) = y := by omega
  rw [linearSnapshot_eq, Vector.getElem?_toList, Vector.getElem?_eq_getElem hlt, Vector.getElem_flatten]
  simp only [Vector.getElem_reverse, FrameBuffer.pixel, hrow, hcol, hflip, Nat.mod_eq_of_lt hx, Nat.mod_eq_of_lt hy]

/-! ### Every operation answers (R171, R176) -/

theorem exists_checkRange : ∃ t, checkRange k s (done u) = .next t := by
  rw [checkRange_eq, done_eq]
  split
  · exact ⟨_, rfl⟩
  · exact ⟨_, rfl⟩

/-- Only RET with SP above 15 stops the model (assumption log, entry 7). -/
theorem exists_exec_of_sp_le (hsp : s.sp.toNat ≤ 15) : ∃ t, exec i s = .next t := by
  cases i with
  | ret =>
    by_cases h0 : s.sp = 0
    · exact ⟨_, execRet_of_zero h0⟩
    · exact ⟨_, execRet_of_pos h0 (Nat.lt_succ_of_le hsp)⟩
  | call nnn =>
    by_cases h15 : s.sp.toNat < 15
    · exact ⟨_, execCall_of_lt h15⟩
    · exact ⟨_, execCall_of_ge (Nat.not_lt.1 h15)⟩
  | drw | ldB | storeRegs | loadRegs => exact exists_checkRange
  | skp x | sknp x =>
    by_cases hk : (s.reg x).toNat < 16
    · exact ⟨_, skipOnKey_of_lt hk⟩
    · exact ⟨_, skipOnKey_of_ge (Nat.not_lt.1 hk)⟩
  | ldVxK x =>
    cases hleast : s.leastKey with
    | some k => exact ⟨_, exec_ldVxK_of_leastKey hleast⟩
    | none => exact ⟨_, exec_ldVxK_of_noKey (State.leastKey_eq_none.1 hleast)⟩
  | _ => exact ⟨_, rfl⟩

theorem State.Inv.exists_step (hs : s.Inv) : ∃ t, step s = .next t ∧ t.Inv := by
  have hnext : ∃ t, step s = .next t := by
    obtain ⟨-, he⟩ | ⟨-, -, he⟩ | ⟨-, -, -, he⟩ | ⟨-, -, i, -, he⟩ := step_cases s
    · exact ⟨_, he⟩
    · exact ⟨_, he⟩
    · exact ⟨_, he⟩
    · rw [he]
      exact exists_exec_of_sp_le hs.sp
  obtain ⟨t, ht⟩ := hnext
  exact ⟨t, ht, everyStepKeepsTheInvariant s t hs ht⟩

/-- A load zeroes what it resets and writes the image inside memory, or is refused (R192, R193). -/
theorem State.Inv.loadRom (hs : s.Inv) (image : List Byte) : (loadRom image s).2.Inv := by
  rw [Machine.loadRom]
  split
  next hfit =>
    have hlen : image.length ≤ Config.romMax := of_decide_eq_true hfit
    have hpc : (BitVec.ofNat 16 Config.romBase).toNat ≤ 0x10FE := by decide
    exact ⟨Memory.wf_writeBytes hs.mem (Nat.add_le_add_left hlen _), Nat.zero_le _, hpc, hs.stack, rfl⟩
  next => exact hs

theorem State.Inv.writeKey (hs : s.Inv) : (writeKey k down s).Inv := by
  by_cases hk : k < 16
  · rw [writeKey_of_lt hk]
    exact ⟨hs.mem, hs.sp, hs.pc, hs.stack, hs.brk⟩
  · rwa [writeKey_of_ge (Nat.not_lt.1 hk)]

theorem State.Inv.exists_perform (hs : s.Inv) (op : HostOp) : ∃ t, perform op s = .next t ∧ t.Inv := by
  cases op with
  | step => exact hs.exists_step
  | construct font =>
    obtain ⟨hmem, hsp, hpc, hstack, hbrk⟩ := resetMeetsTheInvariant.2 font
    exact ⟨_, rfl, hmem, hsp, hpc, hstack, hbrk⟩
  | loadRom image => exact ⟨_, rfl, hs.loadRom image⟩
  | tickDelayTimer | tickSoundTimer => exact ⟨_, rfl, hs.mem, hs.sp, hs.pc, hs.stack, hs.brk⟩
  | setKey | clearKey => exact ⟨_, rfl, hs.writeKey⟩
  | setBreak => exact ⟨_, rfl, hs.mem, hs.sp, hs.pc, hs.stack, risingAddrs_brk_setBreak hs.brk⟩
  | getFrameBufferSnapshot | getRegisterSnapshot => exact ⟨_, rfl, hs⟩

theorem State.Inv.exists_runOps (hs : s.Inv) (ops : List HostOp) : ∃ t, runOps ops s = .next t ∧ t.Inv := by
  induction ops generalizing s with
  | nil => exact ⟨s, rfl, hs⟩
  | cons op rest ih =>
    obtain ⟨t, ht, htInv⟩ := hs.exists_perform op
    rw [runOps, ht]
    exact ih htInv

end

/-- Settles O15, by induction on the list of operations from power-on. -/
theorem noSequenceOfOperationsStops : Obligations.NoSequenceOfOperationsStops :=
  ⟨fun _ op hs => hs.exists_perform op, fun font ops => (resetMeetsTheInvariant.2 font).exists_runOps ops⟩

/-- Settles O8: the decoder rejects the word, so the Step reports it. -/
theorem invalidWordIsReportedAndSkipped : Obligations.InvalidWordIsReportedAndSkipped := by
  intro s w hp hpc hw hinv
  obtain rfl := fetchedWord_iff.1 hw
  exact step_of_error (noPause_iff.1 hp) (State.fetchable_iff.2 hpc) (decode_of_invalidWord hinv)

/-- Settles O50: each tick is one countdown, and the two write different timers. -/
theorem ticksCountDownToZero : Obligations.TicksCountDownToZero := fun _ =>
  ⟨⟨toNat_countDown _, rfl⟩, ⟨toNat_countDown _, rfl⟩, rfl, rfl⟩

/-- Settles O51: both events are `writeKey`, on the two sides of the index check. -/
theorem keyEventsSetOneLevel : Obligations.KeyEventsSetOneLevel := fun k s =>
  ⟨fun hk => ⟨getElem_key_writeKey hk, getElem_key_writeKey hk,
      by rw [setKey, writeKey_of_lt hk], by rw [clearKey, writeKey_of_lt hk]⟩,
    fun hk => ⟨writeKey_of_ge hk, writeKey_of_ge hk⟩⟩

/-- Settles O52: the list after the change holds the addresses of the set and still rises. -/
theorem setBreakChangesOneAddress : Obligations.SetBreakChangesOneAddress := fun _ _ _ h =>
  ⟨fun _ => mem_brk_setBreak, risingAddrs_brk_setBreak h, rfl⟩

/-- Settles O56: the register snapshot copies the registers, the buffer's two views are read cell by cell. -/
theorem snapshotsShowTheState : Obligations.SnapshotsShowTheState := by
  refine fun s => ⟨rfl, rfl, rfl, fun x y => ?_, length_linearSnapshot s, fun x y => getElem?_linearSnapshot⟩
  simp only [frameBufferSnapshot, FrameBuffer.pixel, Nat.mod_eq_of_lt x.isLt, Nat.mod_eq_of_lt y.isLt]

end Machine
end Sys2Proof

/-! SUPPORT. Resets, the boot contract and the end of a run (70_reset_and_hazards.md): what Construct and LoadRom leave,
what a session answers to a list of operations, and what keeps a run ended. -/

namespace Sys2Proof
namespace Machine

section
variable {s t : State} {image : List Byte} {m : Session} {ops : List HostOp} {w p : Word} {nnn : Addr12} {i : Instr}

/-! ### Construct (R190) -/

/-- The 80 bytes of a font fit in memory (R52). -/
theorem font_fits (font : Vector Byte 80) : 0 + font.toList.length ≤ Config.memSize := by
  rw [Vector.length_toList]
  decide

theorem read_constructWith_of_lt {font : Vector Byte 80} {a : Nat} (ha : a < 80) :
    (State.constructWith font).mem.read a = font[a] := by
  have hread := Memory.read_writeBytes_of_inside Memory.wf_nil (font_fits font) (k := a)
    (by rwa [Vector.length_toList])
  rwa [Nat.zero_add, Vector.getElem_toList] at hread

/-- Above the font nothing is listed, and nothing unlisted is set there. -/
theorem read_constructWith_of_ge {font : Vector Byte 80} {a : Nat} (ha : 80 ≤ a) :
    (State.constructWith font).mem.read a = 0 := by
  have hout : 0 + font.toList.length ≤ a := by rwa [Vector.length_toList, Nat.zero_add]
  have hdefault : defaultFont.length ≤ a := ha
  calc (State.constructWith font).mem.read a
    _ = Memory.unlisted a := Memory.read_writeBytes_of_outside Memory.wf_nil (font_fits font) (.inr hout)
    _ = 0 := List.getD_eq_default _ _ hdefault

/-! ### LoadRom (R192, R193) -/

theorem loadRom_of_fit (hfit : image.length ≤ 3584) : loadRom image s = (.loaded, s.loadImage image) :=
  if_pos (decide_eq_true hfit)

theorem loadRom_of_not_fit (hout : 3584 < image.length) : loadRom image s = (.refused, s) :=
  if_neg (mt of_decide_eq_true (Nat.not_le_of_gt hout))

/-- An image of at most 3584 bytes ends inside memory (R193). -/
theorem image_fits (hfit : image.length ≤ 3584) : Config.romBase + image.length ≤ Config.memSize :=
  Nat.add_le_add_left hfit Config.romBase

theorem read_loadImage_of_inside (hwf : s.mem.wf = true) (hfit : image.length ≤ 3584) {j : Nat}
    (hj : j < image.length) : (s.loadImage image).mem.read (0x200 + j) = image[j] :=
  Memory.read_writeBytes_of_inside hwf (image_fits hfit) hj

theorem sameMemOutside_loadImage (hwf : s.mem.wf = true) (hfit : image.length ≤ 3584) :
    SameMemOutside 0x200 image.length s (s.loadImage image) := fun _ =>
  Memory.read_writeBytes_of_outside hwf (image_fits hfit)

/-- The first fetch after a load takes the image's first two bytes (R191, R195). -/
theorem fetchWord_loadImage {high low : Byte} {rest : List Byte} (hwf : s.mem.wf = true)
    (hfit : (high :: low :: rest).length ≤ 3584) :
    (s.loadImage (high :: low :: rest)).fetchWord = wordOfBytes high low := by
  have hhigh := read_loadImage_of_inside hwf hfit (j := 0) (by simp)
  have hlow := read_loadImage_of_inside hwf hfit (j := 1) (by simp)
  exact congrArg₂ wordOfBytes hhigh hlow

/-- No breakpoint pauses the first Step after a load, and PC lies in memory (R192). -/
theorem step_loadImage_of_ok (hi : decode (s.loadImage image).fetchWord = .ok i) :
    step (s.loadImage image) = exec i { s.loadImage image with pc := 0x202 } :=
  step_of_ok rfl rfl hi

/-! ### The boot contract (R196) -/

/-- A `LoadRom` that fits answers a session that is loaded, whatever stood before it. -/
theorem Session.perform_loadRom_of_fit (hfit : image.length ≤ 3584) :
    m.perform (.loadRom image) = .next { core := m.core.loadImage image, loaded := true } := by
  have hloaded : loadedAfter (.loadRom image) m.loaded = true :=
    Bool.or_eq_true_iff.2 (.inr (decide_eq_true hfit))
  have hload : Machine.perform (.loadRom image) m.core = .next (m.core.loadImage image) := by
    rw [Machine.perform, loadRom_of_fit hfit]
  rw [Session.perform_of_next (.inl (by simp)) hload, hloaded]

/-- A list that keeps the contract runs to its end, with the core as the operations alone leave it. -/
theorem Session.exists_run_of_bootContract (hs : m.core.Inv) (hc : bootContract m.loaded ops = true) :
    ∃ t, m.run ops = .next t ∧ t.core.Inv ∧ runOps ops m.core = .next t.core := by
  induction ops generalizing m with
  | nil => exact ⟨m, rfl, hs, rfl⟩
  | cons op rest ih =>
    obtain ⟨hop, hrest⟩ := bootContract_cons.1 hc
    obtain ⟨u, hu, huInv⟩ := hs.exists_perform op
    rw [Session.run, Session.perform_of_next hop hu, runOps, hu]
    exact ih huInv hrest

/-- A list that breaks the contract is refused at its first Step with nothing loaded. -/
theorem Session.run_of_not_bootContract (hs : m.core.Inv) (hc : bootContract m.loaded ops = false) :
    m.run ops = .refused .stepBeforeLoadRom := by
  induction ops generalizing m with
  | nil => cases hc
  | cons op rest ih =>
    by_cases hop : op ≠ .step ∨ m.loaded = true
    · obtain ⟨u, hu, huInv⟩ := hs.exists_perform op
      rw [Session.run, Session.perform_of_next hop hu]
      refine ih huInv (Bool.eq_false_iff.2 fun hrest => ?_)
      rw [bootContract_cons.2 ⟨hop, hrest⟩] at hc
      cases hc
    · obtain ⟨rfl, hloaded⟩ : op = .step ∧ m.loaded = false := by simpa using hop
      rw [Session.run, Session.perform_step_of_not_loaded hloaded]

/-! ### The end of a run (R198) -/

/-- The encoding direction is enough, since decoding undoes it (`decode_encode`). -/
theorem encodes_iff : Encodes w i ↔ w = encode i :=
  ⟨fun ⟨_, he⟩ => he.symm, fun h => h ▸ ⟨decode_encode i, rfl⟩⟩

/-- Below 0x1000 the word of the jump to an address is 0x1000 more than the address. -/
theorem encode_jp_of_toNat_eq (h : nnn.toNat = p.toNat) : encode (.jp nnn) = 0x1000 + p := by
  have hnum : (encode (.jp nnn)).toNat = 0x1000 + nnn.toNat := toNat_formatA 0x1 nnn
  bv_omega

theorem State.exists_jp_of_ended (h : s.ended = true) :
    ∃ nnn : Addr12, nnn.toNat = s.pc.toNat ∧ s.fetchWord = encode (.jp nnn) := by
  obtain ⟨-, hpc, hw⟩ := State.ended_iff.1 h
  have hnnn : (BitVec.ofNat 12 s.pc.toNat).toNat = s.pc.toNat := Nat.mod_eq_of_lt (by omega)
  exact ⟨_, hnnn, hw.trans (encode_jp_of_toNat_eq hnnn).symm⟩

/-- The predicate in R198's own words. -/
theorem State.ended_iff_exists_jp : s.ended = true ↔ s.lastResult = .ok ∧ s.pc.toNat ≤ 0xFFE ∧
    ∃ (w : Word) (nnn : Addr12), FetchedWord s w ∧ Encodes w (.jp nnn) ∧ nnn.toNat = s.pc.toNat := by
  constructor
  · intro h
    obtain ⟨hok, hpc, -⟩ := State.ended_iff.1 h
    obtain ⟨nnn, hnnn, hw⟩ := State.exists_jp_of_ended h
    exact ⟨hok, hpc, _, nnn, fetchedWord_iff.2 rfl, encodes_iff.2 hw, hnnn⟩
  · rintro ⟨hok, hpc, w, nnn, hw, henc, hnnn⟩
    obtain rfl := fetchedWord_iff.1 hw
    exact State.ended_iff.2 ⟨hok, hpc, (encodes_iff.1 henc).trans (encode_jp_of_toNat_eq hnnn)⟩

/-- The jump writes the PC that the fetch advanced back, and the result was `ok` already. -/
theorem step_of_ended (h : s.ended = true) (hp : NoPause s) : step s = .next s := by
  obtain ⟨hok, hpc, -⟩ := State.ended_iff.1 h
  obtain ⟨nnn, hnnn, hw⟩ := State.exists_jp_of_ended h
  have htarget : addrOf nnn = s.pc := BitVec.eq_of_toNat_eq ((toNat_addrOf nnn).trans hnnn)
  calc step s
    _ = exec (.jp nnn) s.advance :=
      step_of_ok (noPause_iff.1 hp) (State.fetchable_iff.2 hpc) (by rw [hw, decode_encode])
    _ = .next { s with pc := addrOf nnn, lastResult := .ok } := rfl
    _ = .next s := by rw [htarget, ← hok]

/-- The end of a run depends on the last result, PC and memory only. -/
theorem State.ended_congr (hres : t.lastResult = s.lastResult) (hpc : t.pc = s.pc) (hmem : t.mem = s.mem) :
    t.ended = s.ended := by
  have hword : t.fetchWord = s.fetchWord := by rw [State.fetchWord, State.fetchWord, hpc, hmem]
  rw [Bool.eq_iff_iff, State.ended_iff, State.ended_iff, hres, hpc, hword]

theorem State.ended_writeKey (k : Nat) (down : Bool) : (writeKey k down s).ended = s.ended := by
  by_cases hk : k < 16
  · rw [writeKey_of_lt hk]
    exact State.ended_congr rfl rfl rfl
  · rw [writeKey_of_ge (Nat.not_lt.1 hk)]

end

/-- Settles O58, by induction on the list of operations, with the session before each of them general. -/
theorem bootContractIsEnforced : Obligations.BootContractIsEnforced := by
  refine ⟨fun m => Session.perform_step_of_not_loaded, fun m image hfit => ?_, fun font ops => ?_⟩
  · refine ⟨_, Session.perform_loadRom_of_fit hfit, rfl, ?_⟩
    rw [Session.perform, if_neg (by simp)]
    rfl
  · have hs : (Session.powerOn font).core.Inv := resetMeetsTheInvariant.2 font
    exact ⟨Session.exists_run_of_bootContract hs, Session.run_of_not_bootContract hs⟩

/-- Settles O59: no operation but the three excluded writes the last result, PC or memory. -/
theorem endedRunStaysEnded : Obligations.EndedRunStaysEnded := by
  refine fun s => ⟨State.ended_iff_exists_jp, step_of_ended, fun op t h hstep hconstruct hload ht => ?_⟩
  cases op with
  | step => exact absurd rfl hstep
  | construct font => exact absurd rfl (hconstruct font)
  | loadRom image => exact absurd rfl (hload image)
  | tickDelayTimer | tickSoundTimer | setBreak =>
    cases ht
    exact (State.ended_congr rfl rfl rfl).trans h
  | setKey | clearKey =>
    cases ht
    exact (State.ended_writeKey _ _).trans h
  | getFrameBufferSnapshot | getRegisterSnapshot =>
    cases ht
    exact h

/-- Settles O53: memory by the two sides of the font's end, every other item as power-on writes it. -/
theorem constructInstallsTheFont : Obligations.ConstructInstallsTheFont := fun _ =>
  ⟨fun a => read_constructWith_of_lt a.isLt, fun _ => read_constructWith_of_ge,
    fun r => Vector.getElem_replicate r.isLt, fun k => Vector.getElem_replicate k.isLt,
    fun k => Vector.getElem_replicate k.isLt, FrameBuffer.pixel_blank, rfl, rfl, rfl, rfl, rfl, rfl, rfl⟩

/-- Settles O54, on the two sides of the length check. -/
theorem loadRomResetsAndLoads : Obligations.LoadRomResetsAndLoads := by
  refine fun image s hwf => ⟨fun hfit => ⟨_, loadRom_of_fit hfit, ?_⟩, loadRom_of_not_fit⟩
  exact ⟨fun r => Vector.getElem_replicate r.isLt, rfl, rfl, rfl, rfl, rfl, FrameBuffer.pixel_blank, rfl, rfl,
    fun j => read_loadImage_of_inside hwf hfit, sameMemOutside_loadImage hwf hfit, rfl, rfl⟩

/-- Settles O55: the load puts the image's first word where the first Step fetches. -/
theorem launchFetchesTheImagesFirstWord : Obligations.LaunchFetchesTheImagesFirstWord := by
  refine ⟨rfl, fun font hi lo rest i hrest hdecode => ?_⟩
  have hfit : (hi :: lo :: rest).length ≤ 3584 := Nat.add_le_add_right hrest 2
  have hs : (State.constructWith font).Inv := resetMeetsTheInvariant.2 font
  have hload := loadRom_of_fit (s := State.constructWith font) hfit
  have hInv := hs.loadRom (hi :: lo :: rest)
  rw [hload] at hInv
  have hword : BitVec.ofNat 16 (hi.toNat * 256 + lo.toNat) = wordOfBytes hi lo := by
    rw [← toNat_wordOfBytes, BitVec.ofNat_toNat, BitVec.setWidth_eq]
  refine ⟨_, hload, hInv, step_loadImage_of_ok ?_⟩
  rw [fetchWord_loadImage hs.mem hfit, ← hword, hdecode]

end Machine
end Sys2Proof
